-- ==== Sys2Proof/Word.lean ====
section
/-! DEFINITION. The two bit-vector types of the machine: 00_scope.md R7, R9, R12. -/

namespace Sys2Proof

/-- The 64-bit unsigned word of every register and intermediate value (R9). -/
abbrev Word := BitVec 64

/-- A byte of a message or of the engine's buffer (R12). -/
abbrev Byte := BitVec 8

end Sys2Proof
end

