-- ==== Sys2Proof/Syntax.lean ====
section
/-! DEFINITION. The commands of the block: one constructor for each row of the opcode map (30_encoding.md R88). -/

namespace Sys2Proof

/-- A command. `n` is the null-reference bit `N` (R83), `reg` the field `REG` (R84), `sh` the field `SH` (R85). Every
other operand is implicit (R86). -/
inductive Instr where
  | nop
  | rotl (reg : BitVec 4) (sh : BitVec 6)
  | shortMix
  | shortEnd
  | mix
  | endPartial
  | endMix
  | short (n : Bool)
  | long (n : Bool)
  | hash128 (n : Bool)
  | hash64 (n : Bool)
  | hash32 (n : Bool)
  | init
  | update (n : Bool)
  | final
  | dzero
  | dtohex
  | dparse (n : Bool)
  | dtryparse (n : Bool)
  | deq
  | dhash
  deriving DecidableEq, Repr

end Sys2Proof
end

