-- ==== Sys2Proof/WellFormed.lean ====
section
/-! DEFINITION. Which commands are legal: the one operand check of the command set (30_encoding.md R84, R87). -/

namespace Sys2Proof

/-- `REG` selects one of `V0`–`V11`; the values 12..15 are illegal (R84). -/
abbrev regLegal (reg : BitVec 4) : Prop := reg.toNat ≤ 11

/-- The check, written over every constructor: every field but `REG` may hold every value of its width. -/
def wellFormed : Instr → Bool
  | .rotl reg _ => decide (regLegal reg)
  | .nop | .shortMix | .shortEnd | .mix | .endPartial | .endMix => true
  | .short _ | .long _ | .hash128 _ | .hash64 _ | .hash32 _ => true
  | .init | .update _ | .final => true
  | .dzero | .dtohex | .dparse _ | .dtryparse _ | .deq | .dhash => true

/-- A well-formed command. -/
abbrev WellFormed (i : Instr) : Prop := wellFormed i = true

end Sys2Proof
end

