-- ==== Sys2Proof/Decode.lean ====
section
/-! DEFINITION. The command word: the opcode map, the decoder and the encoder (30_encoding.md R80–R90). -/

namespace Sys2Proof

/-- Why a word is no legal command (R87, R89). Every one raises `IllegalCommand` when the word is written to `CMD`. -/
inductive DecodeError where
  /-- `OP` is none of the opcodes of R88. -/
  | reservedOpcode
  /-- A bit outside the opcode's used fields is 1. -/
  | reservedBits
  /-- `ROTL` with `REG` in 12..15. -/
  | badRegister
  deriving DecidableEq, Repr

/-- The field `OP` [7:0] (R81). -/
def opField (w : Word) : BitVec 8 := w.extractLsb' 0 8
/-- The field `N` [8] (R81, R83). -/
def nField (w : Word) : Bool := w.getLsbD 8
/-- The field `REG` [19:16] (R81, R84). -/
def regField (w : Word) : BitVec 4 := w.extractLsb' 16 4
/-- The field `SH` [29:24] (R81, R85). -/
def shField (w : Word) : BitVec 6 := w.extractLsb' 24 6

/-- `USED_MASK` of a command with no field but `OP` (R80). -/
def plainUsed : Word := 0xFF
/-- `USED_MASK` of a command that uses `N` (R80, R83). -/
def nullUsed : Word := 0x1FF
/-- `USED_MASK` of `ROTL`: `OP`, `REG` and `SH` (R80, R84, R85). -/
def rotlUsed : Word := 0x3F0F00FF

/-- A command with no fields: legal when every bit outside `OP` is 0 (R87). -/
def plainForm (w : Word) (i : Instr) : Except DecodeError Instr :=
  if w &&& ~~~plainUsed = 0 then .ok i else .error .reservedBits

/-- A command that uses `N`: legal when every bit outside `OP` and `N` is 0 (R87). -/
def nullForm (w : Word) (f : Bool → Instr) : Except DecodeError Instr :=
  if w &&& ~~~nullUsed = 0 then .ok (f (nField w)) else .error .reservedBits

/-- `ROTL`: legal when every bit outside `OP`, `REG`, `SH` is 0 and `REG` ≤ 11 (R80, R87). -/
def rotlForm (w : Word) : Except DecodeError Instr :=
  if w &&& ~~~rotlUsed = 0 then
    if regLegal (regField w) then .ok (.rotl (regField w) (shField w)) else .error .badRegister
  else .error .reservedBits

/-- The decoder of R80 over the opcode map of R88: total, each rejection by name. -/
def decode (w : Word) : Except DecodeError Instr :=
  match (opField w).toNat with
  | 0x00 => plainForm w .nop
  | 0x10 => rotlForm w
  | 0x11 => plainForm w .shortMix
  | 0x12 => plainForm w .shortEnd
  | 0x13 => plainForm w .mix
  | 0x14 => plainForm w .endPartial
  | 0x15 => plainForm w .endMix
  | 0x18 => nullForm w .short
  | 0x19 => nullForm w .long
  | 0x1A => nullForm w .hash128
  | 0x1B => nullForm w .hash64
  | 0x1C => nullForm w .hash32
  | 0x20 => plainForm w .init
  | 0x21 => nullForm w .update
  | 0x22 => plainForm w .final
  | 0x30 => plainForm w .dzero
  | 0x31 => plainForm w .dtohex
  | 0x32 => nullForm w .dparse
  | 0x33 => nullForm w .dtryparse
  | 0x34 => plainForm w .deq
  | 0x35 => plainForm w .dhash
  | _ => .error .reservedOpcode

/-- The opcode of a command (R88). -/
def opcodeOf : Instr → BitVec 8
  | .nop => 0x00
  | .rotl _ _ => 0x10
  | .shortMix => 0x11
  | .shortEnd => 0x12
  | .mix => 0x13
  | .endPartial => 0x14
  | .endMix => 0x15
  | .short _ => 0x18
  | .long _ => 0x19
  | .hash128 _ => 0x1A
  | .hash64 _ => 0x1B
  | .hash32 _ => 0x1C
  | .init => 0x20
  | .update _ => 0x21
  | .final => 0x22
  | .dzero => 0x30
  | .dtohex => 0x31
  | .dparse _ => 0x32
  | .dtryparse _ => 0x33
  | .deq => 0x34
  | .dhash => 0x35

/-- `w = OP | (N << 8) | (r << 16) | (sh << 24)` (R90). -/
def packWord (op : BitVec 8) (n : Bool) (reg : BitVec 4) (sh : BitVec 6) : Word :=
  op.setWidth 64 ||| ((BitVec.ofBool n).setWidth 64 <<< 8) ||| (reg.setWidth 64 <<< 16)
    ||| (sh.setWidth 64 <<< 24)

/-- The word of a command (R90); an unused field is 0 (R81). -/
def encode (i : Instr) : Word :=
  match i with
  | .rotl reg sh => packWord (opcodeOf i) false reg sh
  | .short n | .long n | .hash128 n | .hash64 n | .hash32 n => packWord (opcodeOf i) n 0 0
  | .update n | .dparse n | .dtryparse n => packWord (opcodeOf i) n 0 0
  | .nop | .shortMix | .shortEnd | .mix | .endPartial | .endMix => packWord (opcodeOf i) false 0 0
  | .init | .final => packWord (opcodeOf i) false 0 0
  | .dzero | .dtohex | .deq | .dhash => packWord (opcodeOf i) false 0 0

/-- A row of the opcode map: the 64-bit match and mask columns of R88. -/
structure OpcodeRow where
  mnemonic : String
  fixed : Word
  mask : Word
  deriving DecidableEq, Repr

/-- The opcode map of R88, copied from its match and mask columns; `decode` does not use it. -/
def opcodeRows : List OpcodeRow :=
  [ ⟨"NOP", 0x0000000000000000, 0xFFFFFFFFFFFFFFFF⟩,
    ⟨"ROTL", 0x0000000000000010, 0xFFFFFFFFC0F0FFFF⟩,
    ⟨"SHORTMIX", 0x0000000000000011, 0xFFFFFFFFFFFFFFFF⟩,
    ⟨"SHORTEND", 0x0000000000000012, 0xFFFFFFFFFFFFFFFF⟩,
    ⟨"MIX", 0x0000000000000013, 0xFFFFFFFFFFFFFFFF⟩,
    ⟨"ENDPARTIAL", 0x0000000000000014, 0xFFFFFFFFFFFFFFFF⟩,
    ⟨"END", 0x0000000000000015, 0xFFFFFFFFFFFFFFFF⟩,
    ⟨"SHORT", 0x0000000000000018, 0xFFFFFFFFFFFFFEFF⟩,
    ⟨"LONG", 0x0000000000000019, 0xFFFFFFFFFFFFFEFF⟩,
    ⟨"HASH128", 0x000000000000001A, 0xFFFFFFFFFFFFFEFF⟩,
    ⟨"HASH64", 0x000000000000001B, 0xFFFFFFFFFFFFFEFF⟩ ] ++
  [ ⟨"HASH32", 0x000000000000001C, 0xFFFFFFFFFFFFFEFF⟩,
    ⟨"INIT", 0x0000000000000020, 0xFFFFFFFFFFFFFFFF⟩,
    ⟨"UPDATE", 0x0000000000000021, 0xFFFFFFFFFFFFFEFF⟩,
    ⟨"FINAL", 0x0000000000000022, 0xFFFFFFFFFFFFFFFF⟩,
    ⟨"DZERO", 0x0000000000000030, 0xFFFFFFFFFFFFFFFF⟩,
    ⟨"DTOHEX", 0x0000000000000031, 0xFFFFFFFFFFFFFFFF⟩,
    ⟨"DPARSE", 0x0000000000000032, 0xFFFFFFFFFFFFFEFF⟩,
    ⟨"DTRYPARSE", 0x0000000000000033, 0xFFFFFFFFFFFFFEFF⟩,
    ⟨"DEQ", 0x0000000000000034, 0xFFFFFFFFFFFFFFFF⟩,
    ⟨"DHASH", 0x0000000000000035, 0xFFFFFFFFFFFFFFFF⟩ ]

/-- A word matches a row of the opcode map. -/
abbrev OpcodeRow.hits (row : OpcodeRow) (w : Word) : Prop := w &&& row.mask = row.fixed

/-- A legal word as the opcode map gives it: it matches a row, and a `ROTL` has `REG` ≤ 11 (R87, R88). -/
abbrev legalWord (w : Word) : Prop :=
  (∃ row ∈ opcodeRows, row.hits w) ∧ (w.extractLsb' 0 8 = 0x10#8 → (w.extractLsb' 16 4).toNat ≤ 11)

/-- The word the opcode table's bits stand for: the low `nbits` bits of `w`, every bit above them 0 (log 10). -/
def tableWord (nbits w : Nat) : Word := BitVec.ofNat 64 (w % 2 ^ nbits)

/-- The host's probe: the command `decode` reads from a table row's bits; none for a word of more than 64 bits, which
cannot reach the block (R82). -/
def decodeTableWord (nbits w : Nat) : Option Instr :=
  if nbits ≤ 64 then (decode (tableWord nbits w)).toOption else none

end Sys2Proof
end

