-- ==== Sys2Proof/Config.lean ====
section
/-! DEFINITION. The two parameters the spec leaves open and lets the model take as an argument: the size of the
message memory and its contents after reset (00_scope.md R8, 20_memory.md R61, R69). They are plain data, carried in
State and changed by no step, so a statement about every state is a statement about every `MSG_SIZE` and `MSG_INIT`. -/

namespace Sys2Proof

/-- `msgSize` is `MSG_SIZE`; `msgInit` lists the bytes of `MSG_INIT` from address 0 up (a byte past the end of the
list is 0, so every contents of a memory of any size can be written down). -/
structure Config where
  msgSize : Nat
  msgInit : List Byte
  deriving DecidableEq, Repr

/-- The range the spec sets: 1 ≤ `MSG_SIZE` ≤ 2^32 (R8, R61). -/
abbrev Config.wf (c : Config) : Prop := 1 ≤ c.msgSize ∧ c.msgSize ≤ 2 ^ 32

/-- `MSG_INIT` at an address: what a message byte reads as when the host has not written it since power-on (R69). -/
def Config.initByte (c : Config) (a : Nat) : Byte := c.msgInit.getD a 0

/-- DESIGN CHOICE (log 3, log 4): the parameters of the fixed `State.reset`. The size is that of the spec's examples
(R8); the contents are all zero. Unsafe if a claim leans on either; the statements quantify over every `Config`. -/
def Config.standard : Config := { msgSize := 4096, msgInit := [] }

end Sys2Proof
end

