-- ==== Sys2Proof/Machine/State.lean ====
section
/-! DEFINITION. The state of the block (10_state.md), the host's actions on it, and its state after reset. -/

namespace Sys2Proof.Machine

/-- The errors a command can raise (60_exceptions.md R231). -/
inductive CmdError where
  /-- R232: an absent data reference. -/
  | invalidArgument
  /-- R233: the span leaves the message memory. -/
  | outOfRange
  /-- R234: malformed digest text. -/
  | format
  /-- R235: the command word is not legal. -/
  | illegalCommand
  deriving DecidableEq, Repr

/-- The register names of the register space (10_state.md R22). -/
inductive Reg where
  | id | cmd | status | seed1 | seed2 | srcAddr | srcLen | dig1 | dig2 | cmp1 | cmp2 | hcode
  | hex (k : Fin 4)
  | v (k : Fin 12)
  | w (k : Fin 12)
  | h (k : Fin 12)
  | elen | ecnt
  | ebuf (k : Fin 24)
  deriving DecidableEq, Repr

/-- One action at the host port (10_state.md R20). `writeReg 0x01` is the command write (R25). -/
inductive HostAction where
  /-- Write a register by number (R22, R23). -/
  | writeReg (number : BitVec 8) (value : Word)
  /-- Read a register by number (R22, R23). -/
  | readReg (number : BitVec 8)
  /-- `MemWrite(addr, 1, v)` (00_scope.md R16, 20_memory.md R64). Addresses are integers and do not wrap (R61). -/
  | writeMsg (addr : Nat) (value : Byte)
  /-- Read one message byte (R64). -/
  | readMsg (addr : Nat)
  /-- The platform asserts the block's reset between two actions (70_reset_and_hazards.md R260, R261). -/
  | reset
  deriving DecidableEq, Repr

/-- The message memory: the bytes that differ from the reset contents, by rising address (20_memory.md R61). -/
abbrev Memory := List Host.Cell

/-- The incremental engine (10_state.md R39–R44). -/
structure Engine where
  /-- `H0`–`H11` (R39). -/
  h : Vector Word 12
  /-- `ELEN` (R40). -/
  elen : Word
  /-- `ECNT` (R41). -/
  ecnt : BitVec 8
  /-- `EBUF[0..191]`, stale bytes included (R42, R44). -/
  ebuf : Vector Byte 192
  deriving DecidableEq, Repr

/-- The whole state (10_state.md R46). `ID` is hardwired (R24) and `STATUS.LONG` is a view (R30): neither is
stored (log 13). -/
structure State where
  /-- `MSG_SIZE` and `MSG_INIT`: parameters (R45), changed by no step. -/
  cfg : Config
  /-- The `CMD` read-back (R25). -/
  cmd : Word
  /-- `STATUS.ERR` (R26, R27). -/
  err : BitVec 4
  /-- `STATUS.EQ` (R28). -/
  eq : Bool
  /-- `STATUS.PARSED` (R29). -/
  parsed : Bool
  /-- `SEED1` (R31). -/
  seed1 : Word
  /-- `SEED2` (R31). -/
  seed2 : Word
  /-- `SRC_ADDR` (R32). -/
  srcAddr : Word
  /-- `SRC_LEN` (R32). -/
  srcLen : Word
  /-- `DIG1` (R33). -/
  dig1 : Word
  /-- `DIG2` (R33). -/
  dig2 : Word
  /-- `CMP1` (R34). -/
  cmp1 : Word
  /-- `CMP2` (R34). -/
  cmp2 : Word
  /-- `HCODE` (R35). -/
  hcode : BitVec 32
  /-- `HEX0`–`HEX3` (R36). -/
  hex : Vector Word 4
  /-- `V0`–`V11` (R37). -/
  v : Vector Word 12
  /-- `W0`–`W11` (R38). -/
  w : Vector Word 12
  /-- The engine (R39–R42). -/
  eng : Engine
  /-- The message memory `MSG` (20_memory.md R61). -/
  msg : Memory
  /-- The host actions still to come: the input of the coming steps (R21; DESIGN CHOICE, log 1). -/
  pending : List HostAction
  /-- What the port returned for the host's last read (DESIGN CHOICE, log 2). -/
  readData : Word
  deriving DecidableEq, Repr

/-- What stops the machine: nothing. "every command word in every state has a defined outcome"
(93_implementation_defined.md): an error of a command is a next state (log 7), so this type has no constructor. -/
inductive Fault
  deriving DecidableEq, Repr

/-- Why a command has no meaning. -/
inductive Refusal where
  /-- Raised by a refused arm of `exec` for a command that has no meaning yet; safe. No arm of this model raises it. -/
  | notModelled (mnemonic : String)
  deriving DecidableEq, Repr

/-- The engine after reset: that of `INIT` under seeds (0, 0) (R46, 70_reset_and_hazards.md R262). -/
def Engine.reset : Engine :=
  { h := Vector.replicate 12 0, elen := 0, ecnt := 0, ebuf := Vector.replicate 192 0 }

/-- The machine right after power-on reset, for any parameters (R46, R260): every register 0, `MSG` = `MSG_INIT`. -/
def State.resetWith (c : Config) : State :=
  { cfg := c, cmd := 0, err := 0, eq := false, parsed := false, seed1 := 0, seed2 := 0, srcAddr := 0, srcLen := 0,
    dig1 := 0, dig2 := 0, cmp1 := 0, cmp2 := 0, hcode := 0, hex := Vector.replicate 4 0,
    v := Vector.replicate 12 0, w := Vector.replicate 12 0, eng := Engine.reset, msg := [], pending := [],
    readData := 0 }

/-- The machine right after reset, with the parameters of `Config.standard` (DESIGN CHOICE, log 3 and log 4). -/
def State.reset : State := State.resetWith Config.standard

end Sys2Proof.Machine
end

