-- ==== Sys2Proof/Machine/Bits.lean ====
section
/-! DEFINITION. Rotation, little-endian assembly, byte sequences and the constants of the notation
(00_scope.md R9–R17). -/

namespace Sys2Proof.Machine

/-- `K` (R7, R17). -/
def K : Word := 0xDEADBEEFDEADBEEF

/-- `rotl64(x, k)` (R15): by `k mod 64`, the identity at 0. -/
def rotl64 (x : Word) (k : Nat) : Word :=
  if k % 64 = 0 then x else (x <<< (k % 64)) ||| (x >>> (64 - k % 64))

/-- `X[i] <- x` on an indexed register file (R11). -/
def setAt {n : Nat} (f : Vector Word n) (i : Fin n) (x : Word) : Vector Word n := f.set i.val x i.isLt

/-- `le64(t)` for a byte sequence of at most 8 bytes (R13): byte `i` at bits [8i+7 : 8i], zero above. -/
def le64 : List Byte → Word
  | [] => 0
  | b :: t => b.setWidth 64 + (le64 t <<< 8)

/-- `le32(t)` for at most 4 bytes (R13, 20_memory.md R63). -/
def le32 : List Byte → BitVec 32
  | [] => 0
  | b :: t => b.setWidth 32 + (le32 t <<< 8)

/-- Byte `i` of a 64-bit register: bits [8i+7 : 8i] (10_state.md R36, R42). -/
def byteOf (x : Word) (i : Nat) : Byte := x.extractLsb' (8 * i) 8

/-- `m[p..q)` (R12). -/
def slice (m : List Byte) (p q : Nat) : List Byte := (m.drop p).take (q - p)

/-- `zeros(n)` (R12). -/
def zeros (n : Nat) : List Byte := List.replicate n 0

/-- `words(blk)` of a 96-byte block: word `j` is `le64(blk[8j..8j+8))` (R14). -/
def words (blk : List Byte) : Vector Word 12 :=
  Vector.ofFn fun j => le64 (slice blk (8 * j.val) (8 * j.val + 8))

/-- `SEEDSTATE(s1, s2)` (R17). -/
def seedState (s1 s2 : Word) : Vector Word 12 := #v[s1, s2, K, s1, s2, K, s1, s2, K, s1, s2, K]

end Sys2Proof.Machine
end

