-- ==== Sys2Proof/Machine/MessageMemory.lean ====
section
/-! DEFINITION. The message memory as data and its operations (20_memory.md). -/

namespace Sys2Proof.Machine

/-- The byte at an address; an unlisted address reads as its reset contents (R61, R69). -/
def Memory.read (c : Config) : Memory → Nat → Byte
  | [], a => c.initByte a
  | (b, u) :: rest, a => if a = b then u else Memory.read c rest a

/-- Store one byte, keeping the canonical form: rising addresses, no byte equal to the reset contents. -/
def Memory.write (c : Config) : Memory → Nat → Byte → Memory
  | [], a, x => if x = c.initByte a then [] else [(a, x)]
  | (b, u) :: rest, a, x =>
    if a < b then (if x = c.initByte a then (b, u) :: rest else (a, x) :: (b, u) :: rest)
    else if a = b then (if x = c.initByte a then rest else (a, x) :: rest)
    else (b, u) :: Memory.write c rest a x

/-- The canonical form: addresses strictly rise, each is inside the memory, and no listed byte equals what an unlisted
address reads as. -/
abbrev Memory.wf (c : Config) (m : Memory) : Prop :=
  m.Pairwise (fun x y => x.1 < y.1) ∧ ∀ x ∈ m, x.1 < c.msgSize ∧ x.2 ≠ c.initByte x.1

/-- The message byte at an address (R61). -/
def State.msgByte (s : State) (a : Nat) : Byte := Memory.read s.cfg s.msg a

/-- `MsgBytes(addr, n)` (00_scope.md R16). -/
def State.msgBytes (s : State) (addr n : Nat) : List Byte := (List.range n).map fun i => s.msgByte (addr + i)

/-- `MemRead(addr, n)`, for n ≤ 8 (00_scope.md R16). -/
def State.memRead (s : State) (addr n : Nat) : Word := le64 (s.msgBytes addr n)

/-- The host's byte write: ignored outside the memory (R64). -/
def State.hostWriteMsg (s : State) (a : Nat) (x : Byte) : State :=
  if a < s.cfg.msgSize then { s with msg := Memory.write s.cfg s.msg a x } else s

/-- The host's byte read: 0 outside the memory (R64). -/
def State.hostReadMsg (s : State) (a : Nat) : Byte := if a < s.cfg.msgSize then s.msgByte a else 0

/-- `MemWrite(addr, n, v)`: the low `n` bytes of `v`, little-endian, which only the host performs, one byte at a time
(00_scope.md R16, 20_memory.md R64). -/
def State.memWrite (s : State) (addr : Nat) : Nat → Word → State
  | 0, _ => s
  | n + 1, x => (s.memWrite addr n x).hostWriteMsg (addr + n) (byteOf x n)

end Sys2Proof.Machine
end

