-- ==== Sys2Proof/Machine/Flags.lean ====
section
/-! DEFINITION. `STATUS`: its stored fields, the view `LONG`, and the word a host reads (10_state.md R26–R30). -/

namespace Sys2Proof.Machine

/-- The code of an error in `STATUS.ERR` (60_exceptions.md R231). -/
def CmdError.code : CmdError → BitVec 4
  | .invalidArgument => 1
  | .outOfRange => 2
  | .format => 3
  | .illegalCommand => 4

/-- Write `STATUS.ERR` (R27). -/
def State.withErr (s : State) (code : BitVec 4) : State := { s with err := code }

/-- The phase test and the view `STATUS.LONG`: `ELEN ≥ 192` (R30, R43). -/
def Engine.long (e : Engine) : Bool := decide (192 ≤ e.elen.toNat)

/-- Bits [63:7] 0, `LONG` [6], `PARSED` [5], `EQ` [4], `ERR` [3:0] (R26). -/
def State.statusWord (s : State) : Word :=
  (BitVec.ofBool s.eng.long ++ BitVec.ofBool s.parsed ++ BitVec.ofBool s.eq ++ s.err).setWidth 64

end Sys2Proof.Machine
end

