-- ==== Sys2Proof/Machine/Ops.lean ====
section
/-! DEFINITION. The shared operations: completing a command, raising an error, the digest latch, the register space
and reset (10_state.md, 60_exceptions.md, 70_reset_and_hazards.md). -/

namespace Sys2Proof.Machine

/-- The outcomes of the model. -/
abbrev Result := Host.Outcome State Fault Refusal

/-- A command that completes writes `STATUS.ERR <- 0` (10_state.md R27). -/
def complete (s : State) : Result := .next (s.withErr 0)

/-- Taking an error: `STATUS.ERR` takes the code and no other state changes; there is no trap, nothing is saved and the
block accepts the next host action (60_exceptions.md R230, R237, R238). There is no return from it (R239). -/
def raiseError (e : CmdError) (s : State) : Result := .next (s.withErr e.code)

/-- A 128-bit digest as `(hash1, hash2)` (00_scope.md R18). -/
abbrev Digest := Word × Word

/-- `(DIG1, DIG2) <- d` (10_state.md R33). -/
def State.withDigest (s : State) (d : Digest) : State := { s with dig1 := d.1, dig2 := d.2 }

/-- Write the mixer's working registers (10_state.md R37). -/
def State.withV (s : State) (v : Vector Word 12) : State := { s with v := v }

/-- Write the engine (10_state.md R39–R42). -/
def State.withEngine (s : State) (e : Engine) : State := { s with eng := e }

/-- The hardwired `ID` (10_state.md R24). -/
def idValue : Word := 0x53504F4F4B590002

/-- `CMD`'s number (10_state.md R22). -/
def cmdNumber : BitVec 8 := 0x01

/-- The register map (10_state.md R22); none for a reserved slot. -/
def regOf (number : BitVec 8) : Option Reg :=
  let n := number.toNat
  if n = 0x00 then some .id
  else if n = 0x01 then some .cmd
  else if n = 0x02 then some .status
  else if n = 0x03 then some .seed1
  else if n = 0x04 then some .seed2
  else if n = 0x05 then some .srcAddr
  else if n = 0x06 then some .srcLen
  else if n = 0x07 then some .dig1
  else if n = 0x08 then some .dig2
  else if n = 0x09 then some .cmp1
  else if n = 0x0A then some .cmp2
  else if n = 0x0B then some .hcode
  else if h : 0x0C ≤ n ∧ n ≤ 0x0F then some (.hex ⟨n - 0x0C, by omega⟩)
  else if h : 0x10 ≤ n ∧ n ≤ 0x1B then some (.v ⟨n - 0x10, by omega⟩)
  else if h : 0x20 ≤ n ∧ n ≤ 0x2B then some (.w ⟨n - 0x20, by omega⟩)
  else if h : 0x30 ≤ n ∧ n ≤ 0x3B then some (.h ⟨n - 0x30, by omega⟩)
  else if n = 0x3C then some .elen
  else if n = 0x3D then some .ecnt
  else if h : 0x40 ≤ n ∧ n ≤ 0x57 then some (.ebuf ⟨n - 0x40, by omega⟩)
  else none

/-- A register as a host reads it: zero-extended to 64 bits (10_state.md R22, R23, R30, R42). -/
def State.readReg (s : State) : Reg → Word
  | .id => idValue
  | .cmd => s.cmd
  | .status => s.statusWord
  | .seed1 => s.seed1
  | .seed2 => s.seed2
  | .srcAddr => s.srcAddr
  | .srcLen => s.srcLen
  | .dig1 => s.dig1
  | .dig2 => s.dig2
  | .cmp1 => s.cmp1
  | .cmp2 => s.cmp2
  | .hcode => s.hcode.setWidth 64
  | .hex k => s.hex[k]
  | .v k => s.v[k]
  | .w k => s.w[k]
  | .h k => s.eng.h[k]
  | .elen => s.eng.elen
  | .ecnt => s.eng.ecnt.setWidth 64
  | .ebuf k => le64 (slice s.eng.ebuf.toList (8 * k.val) (8 * k.val + 8))

/-- What a host write stores: the value in a read-write register, the read-back in `CMD`, nothing in a read-only one
(10_state.md R22, R23, R25). Executing the command of a `CMD` write is the host port's part. -/
def State.writeReg (s : State) (x : Word) : Reg → State
  | .cmd => { s with cmd := x }
  | .seed1 => { s with seed1 := x }
  | .seed2 => { s with seed2 := x }
  | .srcAddr => { s with srcAddr := x }
  | .srcLen => { s with srcLen := x }
  | .dig1 => { s with dig1 := x }
  | .dig2 => { s with dig2 := x }
  | .cmp1 => { s with cmp1 := x }
  | .cmp2 => { s with cmp2 := x }
  | .v k => { s with v := setAt s.v k x }
  | .w k => { s with w := setAt s.w k x }
  | .id | .status | .hcode | .hex _ | .h _ | .elen | .ecnt | .ebuf _ => s

/-- The host reads a register by number; a reserved slot reads 0 (10_state.md R23). -/
def State.hostReadReg (s : State) (number : BitVec 8) : Word :=
  match regOf number with
  | some r => s.readReg r
  | none => 0

/-- The host writes a register by number; a write to a reserved slot is ignored (10_state.md R23). -/
def State.hostWriteReg (s : State) (number : BitVec 8) (x : Word) : State :=
  match regOf number with
  | some r => s.writeReg x r
  | none => s

/-- The reset event: every register at its reset value, the message memory and the parameters untouched
(70_reset_and_hazards.md R260). The port's list of actions still to come and the value it last returned are the host's
and stay (DESIGN CHOICE, log 8). -/
def State.hostReset (s : State) : State :=
  { State.resetWith s.cfg with msg := s.msg, pending := s.pending, readData := s.readData }

end Sys2Proof.Machine
end

