-- ==== Sys2Proof/Machine/Control.lean ====
section
/-! DEFINITION. The control command (44_control.md). -/

namespace Sys2Proof.Machine

/-- `NOP` (R220): `STATUS.ERR <- 0`. -/
def execNop (s : State) : Result := complete s

end Sys2Proof.Machine
end

