-- ==== Sys2Proof/Machine/HexText.lean ====
section
/-! DEFINITION. The text form of a digest: the formatter of 43_digest.md R191 and the grammar of R192. -/

namespace Sys2Proof.Machine

/-- The upper-case ASCII digit of a nibble (R191). -/
def hexDigit (nib : BitVec 4) : Byte :=
  if nib.toNat < 10 then BitVec.ofNat 8 (0x30 + nib.toNat) else BitVec.ofNat 8 (0x41 + (nib.toNat - 10))

/-- The 32 characters of a digest, first digit first: character `i` is the digit of bits [127-4i : 124-4i] (R191). -/
def hexText (d : Digest) : List Byte :=
  (List.range 32).map fun i => hexDigit ((d.1 ++ d.2).extractLsb' (124 - 4 * i) 4)

/-- `HEX0`–`HEX3`: character `i` is byte `i mod 8` of `HEX(i div 8)` (R191, 10_state.md R36). -/
def hexWords (d : Digest) : Vector Word 4 :=
  Vector.ofFn fun k => le64 (slice (hexText d) (8 * k.val) (8 * k.val + 8))

/-- The set `WS` (R192). -/
def isSpace (b : Byte) : Bool :=
  b == 0x09 || b == 0x0A || b == 0x0B || b == 0x0C || b == 0x0D || b == 0x20

/-- The value of a byte of the set `HD`, in either case; none for any other byte (R192). -/
def digitValue (b : Byte) : Option (BitVec 4) :=
  if 0x30 ≤ b.toNat ∧ b.toNat ≤ 0x39 then some (BitVec.ofNat 4 (b.toNat - 0x30))
  else if 0x61 ≤ b.toNat ∧ b.toNat ≤ 0x66 then some (BitVec.ofNat 4 (b.toNat - 0x61 + 10))
  else if 0x41 ≤ b.toNat ∧ b.toNat ≤ 0x46 then some (BitVec.ofNat 4 (b.toNat - 0x41 + 10))
  else none

/-- Skip leading whitespace (R192). -/
def skipSpace : List Byte → List Byte
  | [] => []
  | b :: t => if isSpace b then skipSpace t else b :: t

/-- Take off one `0x` or `0X`, which a digit must follow at once; none when it is followed by anything else (R192). -/
def dropMarker : List Byte → Option (List Byte)
  | z :: x :: t =>
    if z = 0x30 ∧ (x = 0x78 ∨ x = 0x58) then
      match t with
      | [] => none
      | b :: _ => if (digitValue b).isSome then some t else none
    else some (z :: x :: t)
  | t => some t

/-- The digit values in text order, whitespace skipped; none at any other byte (R192). -/
def digitsOf : List Byte → Option (List (BitVec 4))
  | [] => some []
  | b :: t =>
    if isSpace b then digitsOf t
    else match digitValue b, digitsOf t with
      | some d, some ds => some (d :: ds)
      | _, _ => none

/-- The 128-bit value of digits, the first most significant (R192). -/
def valueOf (ds : List (BitVec 4)) : BitVec 128 := ds.foldl (fun v d => (v <<< 4) ||| d.setWidth 128) 0

/-- `ParseText(t)` (R192): none is `FAIL`. -/
def parseText (t : List Byte) : Option Digest :=
  match (dropMarker (skipSpace t)).bind digitsOf with
  | none => none
  | some ds =>
    if ds.length = 32 then some ((valueOf ds).extractLsb' 64 64, (valueOf ds).extractLsb' 0 64) else none

end Sys2Proof.Machine
end

