-- ==== Sys2Proof/Machine/Operands.lean ====
section
/-! DEFINITION. The memory operand of a command: the absolute span and the null reference (20_memory.md R66,
30_encoding.md R83, 41_mixer_oneshot.md R130, 44_control.md R222). -/

namespace Sys2Proof.Machine

/-- The span check: `SRC_ADDR + SRC_LEN ≤ MSG_SIZE` as an exact sum of integers (R66). -/
abbrev State.spanInRange (s : State) : Prop := s.srcAddr.toNat + s.srcLen.toNat ≤ s.cfg.msgSize

/-- The bytes of the span `MSG[SRC_ADDR .. SRC_ADDR+SRC_LEN)` (R61). -/
def State.spanBytes (s : State) : List Byte := s.msgBytes s.srcAddr.toNat s.srcLen.toNat

/-- The span operand after its check (R66). -/
def spanOperand (s : State) : Except CmdError (List Byte) :=
  if s.spanInRange then .ok s.spanBytes else .error .outOfRange

/-- The message of a hashing command and of `UPDATE`: the null reference is the empty message when `SRC_LEN` = 0 and
an error otherwise (R130, R163). -/
def messageOperand (n : Bool) (s : State) : Except CmdError (List Byte) :=
  if n then (if s.srcLen.toNat = 0 then .ok [] else .error .invalidArgument) else spanOperand s

/-- The text of `DPARSE`: a null reference is an error whatever `SRC_LEN` is (43_digest.md R193). -/
def textOperand (n : Bool) (s : State) : Except CmdError (List Byte) :=
  if n then .error .invalidArgument else spanOperand s

/-- Run a command on its memory operand: raise the operand's error, or complete in the state the command makes. -/
def onOperand (operand : Except CmdError (List Byte)) (s : State) (f : List Byte → State) : Result :=
  match operand with
  | .ok m => complete (f m)
  | .error e => raiseError e s

end Sys2Proof.Machine
end

