-- ==== Sys2Proof/Machine/DigestCommands.lean ====
section
/-! DEFINITION. The commands of the digest type (43_digest.md). -/

namespace Sys2Proof.Machine

/-- `DZERO` (R190). -/
def execDzero (s : State) : Result := complete (s.withDigest (0, 0))

/-- `DTOHEX` (R191). -/
def execDtohex (s : State) : Result := complete { s with hex := hexWords (s.dig1, s.dig2) }

/-- A parse that succeeds: the value in the latch and `PARSED` set (R193, R194). -/
def State.withParse (s : State) (d : Digest) : State := { s.withDigest d with parsed := true }

/-- A `DTRYPARSE` that fails: `Zero` in the latch and `PARSED` clear (R194). -/
def State.withParseFailure (s : State) : State := { s.withDigest (0, 0) with parsed := false }

/-- `DPARSE` (R193). -/
def execDparse (n : Bool) (s : State) : Result :=
  match textOperand n s with
  | .error e => raiseError e s
  | .ok t =>
    match parseText t with
    | none => raiseError .format s
    | some d => complete (s.withParse d)

/-- The outcome of `DTRYPARSE` on a text: a failure is no error (R194). -/
def tryParseState (s : State) : Option Digest → State
  | none => s.withParseFailure
  | some d => s.withParse d

/-- `DTRYPARSE` (R194): a null reference is a failed parse. -/
def execDtryparse (n : Bool) (s : State) : Result :=
  if n then complete (tryParseState s none)
  else onOperand (spanOperand s) s fun t => tryParseState s (parseText t)

/-- `DEQ` (R195). -/
def execDeq (s : State) : Result := complete { s with eq := decide (s.dig1 = s.cmp1 ∧ s.dig2 = s.cmp2) }

/-- `DHASH` (R196). -/
def execDhash (s : State) : Result := complete { s with hcode := s.dig1.extractLsb' 0 32 }

end Sys2Proof.Machine
end

