-- ==== Sys2Proof/Machine/MixFunctions.lean ====
section
/-! DEFINITION. The pure functions of the mixer sub-block: `ShortMix`, `ShortEnd`, `Mix`, `EndPartial`, `End`
(40_mixer_primitives.md R100–R107), each as the loop of steps the spec gives. -/

namespace Sys2Proof.Machine

/-- The rotated word of step `k` of `ShortMix`: `[2, 3, 0, 1][k mod 4]` (R102). -/
def shortMixWord (k : Nat) : Fin 4 := Fin.ofNat 4 (k + 2)

/-- The rotate amounts of `ShortMix` (R102). -/
def shortMixRot : List Nat := [50, 52, 30, 41, 54, 48, 38, 37, 62, 34, 5, 36]

/-- A step of `ShortMix` on word `x` by amount `r`: rotate, add the successor, xor into the word two on (R102). -/
def shortMixStep (h : Vector Word 4) (x : Fin 4) (r : Nat) : Vector Word 4 :=
  let h := setAt h x (rotl64 h[x] r)
  let h := setAt h x (h[x] + h[x + 1])
  setAt h (x + 2) (h[x + 2] ^^^ h[x])

/-- `ShortMix` (R102): twelve steps. -/
def shortMix (h : Vector Word 4) : Vector Word 4 :=
  (List.range 12).foldl (fun h k => shortMixStep h (shortMixWord k) (shortMixRot.getD k 0)) h

/-- The written word of step `k` of `ShortEnd`: `[3, 0, 1, 2][k mod 4]` (R103). -/
def shortEndWord (k : Nat) : Fin 4 := Fin.ofNat 4 (k + 3)

/-- The rotate amounts of `ShortEnd` (R103; 90_conflicts.md C1: eleven steps). -/
def shortEndRot : List Nat := [15, 52, 26, 51, 28, 9, 47, 54, 32, 25, 63]

/-- A step of `ShortEnd` that writes word `y` from its predecessor `x = y + 3 mod 4` (R103). -/
def shortEndStep (h : Vector Word 4) (y : Fin 4) (r : Nat) : Vector Word 4 :=
  let x := y + 3
  let h := setAt h y (h[y] ^^^ h[x])
  let h := setAt h x (rotl64 h[x] r)
  setAt h y (h[y] + h[x])

/-- `ShortEnd` (R103): eleven steps. -/
def shortEnd (h : Vector Word 4) : Vector Word 4 :=
  (List.range 11).foldl (fun h k => shortEndStep h (shortEndWord k) (shortEndRot.getD k 0)) h

/-- The rotate amounts of `Mix` (R104). -/
def mixRot : List Nat := [11, 32, 43, 31, 17, 28, 39, 57, 55, 54, 22, 46]

/-- Step `i` of `Mix` on state `s` with data `d` (R104); the indices are mod 12. -/
def mixStep (d s : Vector Word 12) (i : Fin 12) : Vector Word 12 :=
  let s := setAt s i (s[i] + d[i])
  let s := setAt s (i + 2) (s[i + 2] ^^^ s[i + 10])
  let s := setAt s (i + 11) (s[i + 11] ^^^ s[i])
  let s := setAt s i (rotl64 s[i] (mixRot.getD i.val 0))
  setAt s (i + 11) (s[i + 11] + s[i + 1])

/-- `Mix(d, s)` (R104): twelve steps. -/
def mix (d s : Vector Word 12) : Vector Word 12 := (List.finRange 12).foldl (mixStep d) s

/-- The rotate amounts of `EndPartial` (R105). -/
def endRot : List Nat := [44, 15, 34, 21, 38, 33, 10, 13, 38, 53, 42, 54]

/-- Step `j` of `EndPartial` (R105); the indices are mod 12. -/
def endPartialStep (h : Vector Word 12) (j : Fin 12) : Vector Word 12 :=
  let h := setAt h (j + 11) (h[j + 11] + h[j + 1])
  let h := setAt h (j + 2) (h[j + 2] ^^^ h[j + 11])
  setAt h (j + 1) (rotl64 h[j + 1] (endRot.getD j.val 0))

/-- `EndPartial` (R105): twelve steps. -/
def endPartial (h : Vector Word 12) : Vector Word 12 := (List.finRange 12).foldl endPartialStep h

/-- `End(d, h)` (R106): add the data block once, then three rounds of `EndPartial`. -/
def endMix (d h : Vector Word 12) : Vector Word 12 :=
  endPartial (endPartial (endPartial (Vector.ofFn fun i => h[i] + d[i])))

end Sys2Proof.Machine
end

