-- ==== Sys2Proof/Machine/HashFunctions.lean ====
section
/-! DEFINITION. The Short and Long algorithms as functions of a byte sequence and two seeds
(41_mixer_oneshot.md R131–R136). -/

namespace Sys2Proof.Machine

/-- `X[i] <- X[i] + x`. -/
def addAt {n : Nat} (h : Vector Word n) (i : Fin n) (x : Word) : Vector Word n := setAt h i (h[i] + x)

/-- Add the first 16 bytes of `m` into `c` and `d` as two words, then mix (R131). -/
def shortHalf (m : List Byte) (q : Vector Word 4) : Vector Word 4 :=
  shortMix (addAt (addAt q 2 (le64 (slice m 0 8))) 3 (le64 (slice m 8 16)))

/-- One 32-byte chunk: the half step on its first 16 bytes, then the other two words into `a` and `b` (R131). -/
def shortChunk (m : List Byte) (q : Vector Word 4) : Vector Word 4 :=
  addAt (addAt (shortHalf m q) 0 (le64 (slice m 16 24))) 1 (le64 (slice m 24 32))

/-- The first `k` chunks of `m` (R131). -/
def shortChunks : Nat → List Byte → Vector Word 4 → Vector Word 4
  | 0, _, q => q
  | k + 1, m, q => shortChunks k (m.drop 32) (shortChunk m q)

/-- The tail of 0..15 bytes: `K` into `c` and `d` for none, else the zero-padded bytes (R131, R132). -/
def shortTail (t : List Byte) (q : Vector Word 4) : Vector Word 4 :=
  if t.length = 0 then addAt (addAt q 2 K) 3 K
  else
    let padded := t ++ zeros (16 - t.length)
    addAt (addAt q 2 (le64 (slice padded 0 8))) 3 (le64 (slice padded 8 16))

/-- `L << 56` of the 64-bit length (R131; log 12): only the low 8 bits of `L` survive. -/
def lengthTop (len : Nat) : Word := BitVec.ofNat 64 len <<< 56

/-- `Short(m, s1, s2)` (R131), total over every length. -/
def shortHash (m : List Byte) (s1 s2 : Word) : Digest :=
  let q := shortChunks (m.length / 32) m #v[s1, s2, K, K]
  let rest := m.drop (32 * (m.length / 32))
  let q := if 16 ≤ rest.length then shortHalf rest q else q
  let tail := if 16 ≤ rest.length then rest.drop 16 else rest
  let q := shortEnd (shortTail tail (addAt q 3 (lengthTop m.length)))
  (q[0], q[1])

/-- `Mix` the first `k` 96-byte blocks of `m` in order (R133, 42_engine.md R163). -/
def mixBlocks : Nat → List Byte → Vector Word 12 → Vector Word 12
  | 0, _, h => h
  | k + 1, m, h => mixBlocks k (m.drop 96) (mix (words (slice m 0 96)) h)

/-- The partial block of 0..95 bytes, zero-padded to 96, its last byte overwritten with its length (R133). -/
def taggedBlock (t : List Byte) : List Byte := (t ++ zeros (96 - t.length)).set 95 (BitVec.ofNat 8 t.length)

/-- The Long path's end: the tagged partial block through `End`, the first two words out (R133). -/
def longFinish (t : List Byte) (h : Vector Word 12) : Digest :=
  let h := endMix (words (taggedBlock t)) h
  (h[0], h[1])

/-- `Long(m, s1, s2)` (R133), total over every length. -/
def longHash (m : List Byte) (s1 s2 : Word) : Digest :=
  longFinish (m.drop (96 * (m.length / 96))) (mixBlocks (m.length / 96) m (seedState s1 s2))

/-- `Hash128(m, s1, s2)` (R136): Short below 192 bytes, else Long. -/
def hash128 (m : List Byte) (s1 s2 : Word) : Digest :=
  if m.length < 192 then shortHash m s1 s2 else longHash m s1 s2

end Sys2Proof.Machine
end

