-- ==== Sys2Proof/Machine/EngineFunctions.lean ====
section
/-! DEFINITION. The incremental engine as functions of its state (42_engine.md). -/

namespace Sys2Proof.Machine

/-- `EBUF[off .. off+len) <- data`, every other byte kept (10_state.md R42, R44). -/
def fillBuffer (buf : Vector Byte 192) (off : Nat) (data : List Byte) : Vector Byte 192 :=
  Vector.ofFn fun i => if off ≤ i.val ∧ i.val < off + data.length then data.getD (i.val - off) 0 else buf[i]

/-- `EBUF[p..q)`. -/
def bufferSlice (buf : Vector Byte 192) (p q : Nat) : List Byte := slice buf.toList p q

/-- `INIT` (R161): the seeds in `H0`, `H1`, everything else cleared. -/
def Engine.init (s1 s2 : Word) : Engine :=
  { h := #v[s1, s2, 0, 0, 0, 0, 0, 0, 0, 0, 0, 0], elen := 0, ecnt := 0, ebuf := Vector.replicate 192 0 }

/-- `ELEN <- ELEN + n` modulo 2^64 (R163, R166). -/
def Engine.lengthAfter (e : Engine) (data : List Byte) : Word := e.elen + BitVec.ofNat 64 data.length

/-- Path (a) of R163: too short to complete 192 bytes, just buffer. -/
def Engine.buffer (e : Engine) (data : List Byte) : Engine :=
  { h := e.h, elen := e.lengthAfter data, ecnt := BitVec.ofNat 8 (e.ecnt.toNat + data.length),
    ebuf := fillBuffer e.ebuf e.ecnt.toNat data }

/-- Path (b) of R163: the live state, seeded from `H0`, `H1` while the old `ELEN` is below 192. -/
def Engine.liveState (e : Engine) : Vector Word 12 :=
  if e.elen.toNat < 192 then seedState e.h[0] e.h[1] else e.h

/-- How many bytes of `data` complete the buffer in path (c) of R163; none when it is empty. With `ECNT` > 192, which no
run reaches, it is 0 (DESIGN CHOICE, log 6). -/
def Engine.fillCount (e : Engine) : Nat := if e.ecnt.toNat = 0 then 0 else 192 - e.ecnt.toNat

/-- The buffer after path (c) of R163. -/
def Engine.filled (e : Engine) (data : List Byte) : Vector Byte 192 :=
  if e.ecnt.toNat = 0 then e.ebuf else fillBuffer e.ebuf e.ecnt.toNat (data.take e.fillCount)

/-- The state after paths (b) and (c) of R163: the completed buffer absorbed as two blocks, when it holds bytes. -/
def Engine.absorbed (e : Engine) (data : List Byte) : Vector Word 12 :=
  if e.ecnt.toNat = 0 then e.liveState
  else
    mix (words (bufferSlice (e.filled data) 96 192)) (mix (words (bufferSlice (e.filled data) 0 96)) e.liveState)

/-- Paths (b) to (e) of R163: seed, absorb the completed buffer, absorb whole blocks of the span, keep the rest. -/
def Engine.absorb (e : Engine) (data : List Byte) : Engine :=
  let direct := data.drop e.fillCount
  let nb := direct.length / 96
  let rest := direct.drop (96 * nb)
  { h := mixBlocks nb direct (e.absorbed data), elen := e.lengthAfter data, ecnt := BitVec.ofNat 8 rest.length,
    ebuf := fillBuffer (e.filled data) 0 rest }

/-- `UPDATE` of the bytes `data` (R163). -/
def Engine.update (e : Engine) (data : List Byte) : Engine :=
  if e.ecnt.toNat + data.length < 192 then e.buffer data else e.absorb data

/-- `FINAL` (R168): the digest of everything absorbed; the engine itself is only read (R169). -/
def Engine.final (e : Engine) : Digest :=
  if e.elen.toNat < 192 then shortHash (bufferSlice e.ebuf 0 e.elen.toNat) e.h[0] e.h[1]
  else if 96 ≤ e.ecnt.toNat then
    longFinish (bufferSlice e.ebuf 96 e.ecnt.toNat) (mix (words (bufferSlice e.ebuf 0 96)) e.h)
  else longFinish (bufferSlice e.ebuf 0 e.ecnt.toNat) e.h

end Sys2Proof.Machine
end

