-- ==== Sys2Proof/Machine/EngineCommands.lean ====
section
/-! DEFINITION. The commands of the incremental engine (42_engine.md). -/

namespace Sys2Proof.Machine

/-- `INIT` (R161). -/
def execInit (s : State) : Result := complete (s.withEngine (Engine.init s.seed1 s.seed2))

/-- `UPDATE` (R163). -/
def execUpdate (n : Bool) (s : State) : Result :=
  onOperand (messageOperand n s) s fun m => s.withEngine (s.eng.update m)

/-- `FINAL` (R168). -/
def execFinal (s : State) : Result := complete (s.withDigest s.eng.final)

end Sys2Proof.Machine
end

