-- ==== Sys2Proof/Machine/Mixer.lean ====
section
/-! DEFINITION. The mixer primitives as commands on `V0`–`V11` and `W0`–`W11` (40_mixer_primitives.md). -/

namespace Sys2Proof.Machine

/-- `V0`–`V3` as `a, b, c, d` (10_state.md R37). -/
def lowV (v : Vector Word 12) : Vector Word 4 := #v[v[0], v[1], v[2], v[3]]

/-- Write `V0`–`V3`, keep `V4`–`V11` (R102, R103). -/
def setLowV (v : Vector Word 12) (q : Vector Word 4) : Vector Word 12 :=
  setAt (setAt (setAt (setAt v 0 q[0]) 1 q[1]) 2 q[2]) 3 q[3]

/-- `ROTL` (R101). A `REG` of 12..15, which no legal word holds, is `IllegalCommand` (30_encoding.md R84; log 5). -/
def execRotl (reg : BitVec 4) (sh : BitVec 6) (s : State) : Result :=
  if h : reg.toNat < 12 then
    complete (s.withV (setAt s.v ⟨reg.toNat, h⟩ (rotl64 s.v[reg.toNat] sh.toNat)))
  else raiseError .illegalCommand s

/-- `SHORTMIX` (R102). -/
def execShortMix (s : State) : Result := complete (s.withV (setLowV s.v (shortMix (lowV s.v))))

/-- `SHORTEND` (R103). -/
def execShortEnd (s : State) : Result := complete (s.withV (setLowV s.v (shortEnd (lowV s.v))))

/-- `MIX` (R104). -/
def execMix (s : State) : Result := complete (s.withV (mix s.w s.v))

/-- `ENDPARTIAL` (R105). -/
def execEndPartial (s : State) : Result := complete (s.withV (endPartial s.v))

/-- `END` (R106). -/
def execEndMix (s : State) : Result := complete (s.withV (endMix s.w s.v))

end Sys2Proof.Machine
end

