-- ==== Sys2Proof/Machine/OneShot.lean ====
section
/-! DEFINITION. The one-shot hashing commands (41_mixer_oneshot.md). -/

namespace Sys2Proof.Machine

/-- `SHORT` (R134). -/
def execShort (n : Bool) (s : State) : Result :=
  onOperand (messageOperand n s) s fun m => s.withDigest (shortHash m s.seed1 s.seed2)

/-- `LONG` (R135). -/
def execLong (n : Bool) (s : State) : Result :=
  onOperand (messageOperand n s) s fun m => s.withDigest (longHash m s.seed1 s.seed2)

/-- `HASH128` (R136). -/
def execHash128 (n : Bool) (s : State) : Result :=
  onOperand (messageOperand n s) s fun m => s.withDigest (hash128 m s.seed1 s.seed2)

/-- `HASH64` (R137): `SEED1` as both seeds, `hash1` kept. -/
def execHash64 (n : Bool) (s : State) : Result :=
  onOperand (messageOperand n s) s fun m => s.withDigest ((hash128 m s.seed1 s.seed1).1, 0)

/-- `zext_64(x[31:0])` (R138). -/
def low32 (x : Word) : Word := (x.extractLsb' 0 32).setWidth 64

/-- `HASH32` (R138): `SEED1[31:0]` as both seeds, the low 32 bits of `hash1` kept. -/
def execHash32 (n : Bool) (s : State) : Result :=
  onOperand (messageOperand n s) s fun m =>
    s.withDigest (low32 (hash128 m (low32 s.seed1) (low32 s.seed1)).1, 0)

end Sys2Proof.Machine
end

