-- ==== Sys2Proof/Machine/Dispatch.lean ====
section
/-! DEFINITION. One arm for each command of the opcode map (30_encoding.md R88). -/

namespace Sys2Proof.Machine

/-- The meaning of each command. -/
def exec (i : Instr) (s : State) : Host.Outcome State Fault Refusal :=
  match i with
  | .nop => Sys2Proof.Machine.execNop s
  | .rotl reg sh => Sys2Proof.Machine.execRotl reg sh s
  | .shortMix => Sys2Proof.Machine.execShortMix s
  | .shortEnd => Sys2Proof.Machine.execShortEnd s
  | .mix => Sys2Proof.Machine.execMix s
  | .endPartial => Sys2Proof.Machine.execEndPartial s
  | .endMix => Sys2Proof.Machine.execEndMix s
  | .short n => Sys2Proof.Machine.execShort n s
  | .long n => Sys2Proof.Machine.execLong n s
  | .hash128 n => Sys2Proof.Machine.execHash128 n s
  | .hash64 n => Sys2Proof.Machine.execHash64 n s
  | .hash32 n => Sys2Proof.Machine.execHash32 n s
  | .init => Sys2Proof.Machine.execInit s
  | .update n => Sys2Proof.Machine.execUpdate n s
  | .final => Sys2Proof.Machine.execFinal s
  | .dzero => Sys2Proof.Machine.execDzero s
  | .dtohex => Sys2Proof.Machine.execDtohex s
  | .dparse n => Sys2Proof.Machine.execDparse n s
  | .dtryparse n => Sys2Proof.Machine.execDtryparse n s
  | .deq => Sys2Proof.Machine.execDeq s
  | .dhash => Sys2Proof.Machine.execDhash s

end Sys2Proof.Machine
end

