-- ==== Sys2Proof/Machine/HostPort.lean ====
section
/-! DEFINITION. The host port: what one host action does (10_state.md R20–R25, 20_memory.md R64, R70). -/

namespace Sys2Proof.Machine

/-- A write of the word `w` to `CMD`: store the read-back, then execute the command, in one step (R25). An illegal word
raises `IllegalCommand` (30_encoding.md R87). -/
def runCommand (w : Word) (s : State) : Result :=
  match decode w with
  | .ok i => exec i { s with cmd := w }
  | .error _ => raiseError .illegalCommand { s with cmd := w }

/-- One host action (R20). Only a write of `CMD` executes anything (R25, 20_memory.md R67). -/
def act (a : HostAction) (s : State) : Result :=
  match a with
  | .writeReg number x => if number = cmdNumber then runCommand x s else .next (s.hostWriteReg number x)
  | .readReg number => .next { s with readData := s.hostReadReg number }
  | .writeMsg addr x => .next (s.hostWriteMsg addr x)
  | .readMsg addr => .next { s with readData := (s.hostReadMsg addr).setWidth 64 }
  | .reset => .next s.hostReset

/-- The port takes the next action of its list, in order (R21, R70). With none, the block waits: it is always ready for
the next action and nothing changes (60_exceptions.md R246; DESIGN CHOICE, log 1). -/
def portStep (s : State) : Result :=
  match s.pending with
  | [] => .next s
  | a :: rest => act a { s with pending := rest }

/-- Put a command write before the actions still to come. -/
def withCommand (s : State) (w : Word) : State := { s with pending := .writeReg cmdNumber w :: s.pending }

end Sys2Proof.Machine
end

