-- ==== Sys2Proof/Machine/Assembly.lean ====
section
/-! DEFINITION. The assembly syntax: what each line of a program stands for (30_encoding.md R90–R92), as host actions.
The machine does not use it. -/

namespace Sys2Proof.Machine

/-- A line of assembly (R90–R92). -/
inductive AsmLine where
  /-- A command mnemonic: stands for `WR CMD, <its word>` (R91). -/
  | command (i : Instr)
  /-- The pseudo-instruction `ROTR V<r>, <k>` (R92). -/
  | rotr (reg : BitVec 4) (k : BitVec 6)
  /-- `WR <reg>, <value>` (R91). -/
  | wr (r : Reg) (value : Word)
  /-- `RD <reg>` (R91). -/
  | rd (r : Reg)
  /-- `MSGW <addr>, <byte>, ...` (R91). -/
  | msgw (addr : Nat) (bytes : List Byte)
  /-- `MSGS <addr>, "<ASCII text>"` (R91). -/
  | msgs (addr : Nat) (text : String)
  deriving DecidableEq, Repr

/-- A register's number: the map of 10_state.md R22 the other way. -/
def regNumber : Reg → BitVec 8
  | .id => 0x00
  | .cmd => 0x01
  | .status => 0x02
  | .seed1 => 0x03
  | .seed2 => 0x04
  | .srcAddr => 0x05
  | .srcLen => 0x06
  | .dig1 => 0x07
  | .dig2 => 0x08
  | .cmp1 => 0x09
  | .cmp2 => 0x0A
  | .hcode => 0x0B
  | .hex k => BitVec.ofNat 8 (0x0C + k.val)
  | .v k => BitVec.ofNat 8 (0x10 + k.val)
  | .w k => BitVec.ofNat 8 (0x20 + k.val)
  | .h k => BitVec.ofNat 8 (0x30 + k.val)
  | .elen => 0x3C
  | .ecnt => 0x3D
  | .ebuf k => BitVec.ofNat 8 (0x40 + k.val)

/-- Host writes of consecutive message bytes from `addr` (R91). -/
def writeBytes : Nat → List Byte → List HostAction
  | _, [] => []
  | addr, b :: t => .writeMsg addr b :: writeBytes (addr + 1) t

/-- The ASCII bytes of a text (R91; log 11). -/
def asciiBytes (text : String) : List Byte := text.toList.map fun c => BitVec.ofNat 8 c.toNat

/-- `ROTR V<r>, <k>` is `ROTL V<r>, (64 - k) mod 64` (R92). -/
def rotrInstr (reg : BitVec 4) (k : BitVec 6) : Instr := .rotl reg (BitVec.ofNat 6 ((64 - k.toNat) % 64))

/-- The host actions a line stands for (R91, R92). -/
def AsmLine.actions : AsmLine → List HostAction
  | .command i => [.writeReg cmdNumber (encode i)]
  | .rotr reg k => [.writeReg cmdNumber (encode (rotrInstr reg k))]
  | .wr r x => [.writeReg (regNumber r) x]
  | .rd r => [.readReg (regNumber r)]
  | .msgw addr bytes => writeBytes addr bytes
  | .msgs addr text => writeBytes addr (asciiBytes text)

/-- The optional suffix `.N` (R90). -/
def nullSuffix (n : Bool) : String := if n then ".N" else ""

/-- A command as the assembler spells it (R90); `ROTL` with its operands, the amount in decimal. -/
def asmText : Instr → String
  | .nop => "NOP"
  | .rotl reg sh => "ROTL V" ++ toString reg.toNat ++ ", " ++ toString sh.toNat
  | .shortMix => "SHORTMIX"
  | .shortEnd => "SHORTEND"
  | .mix => "MIX"
  | .endPartial => "ENDPARTIAL"
  | .endMix => "END"
  | .short n => "SHORT" ++ nullSuffix n
  | .long n => "LONG" ++ nullSuffix n
  | .hash128 n => "HASH128" ++ nullSuffix n
  | .hash64 n => "HASH64" ++ nullSuffix n
  | .hash32 n => "HASH32" ++ nullSuffix n
  | .init => "INIT"
  | .update n => "UPDATE" ++ nullSuffix n
  | .final => "FINAL"
  | .dzero => "DZERO"
  | .dtohex => "DTOHEX"
  | .dparse n => "DPARSE" ++ nullSuffix n
  | .dtryparse n => "DTRYPARSE" ++ nullSuffix n
  | .deq => "DEQ"
  | .dhash => "DHASH"

end Sys2Proof.Machine
end

