-- ==== Sys2Proof/Safety.lean ====
section
/-! DEFINITION. The terms the statements use: the invariant of the whole state, the engine's invariant over the message
it has absorbed (42_engine.md R162), the grammar of digest text (43_digest.md R192), the classes of registers and of
commands, and the mixing functions written out step by step (40_mixer_primitives.md). The machine uses none of them. -/

namespace Sys2Proof.Machine

/-! ### The whole state -/

/-- A byte of the upper-case text form (43_digest.md R191). -/
abbrev upperDigit (b : Byte) : Prop := (0x30 ≤ b.toNat ∧ b.toNat ≤ 0x39) ∨ (0x41 ≤ b.toNat ∧ b.toNat ≤ 0x46)

/-- `HEX0`–`HEX3` hold zeros (never written since reset) or 32 upper-case digits (10_state.md R36, R46). -/
def textLegal (hex : Vector Word 4) : Prop :=
  hex = Vector.replicate 4 0 ∨ ∀ k : Fin 4, ∀ i < 8, upperDigit (byteOf hex[k] i)

/-- What every state of a run satisfies: legal parameters, a canonical message memory, an `ERR` code the block can
produce (10_state.md R26), at most 191 buffered bytes (10_state.md R41, 42_engine.md R162) and a legal text. -/
def State.Inv (s : State) : Prop :=
  s.cfg.wf ∧ Memory.wf s.cfg s.msg ∧ s.err.toNat ≤ 4 ∧ s.eng.ecnt.toNat ≤ 191 ∧ textLegal s.hex

/-- The command the next host action issues, when that action is a `CMD` write of a legal word. -/
def State.nextCommand (s : State) : Option Instr :=
  match s.pending with
  | .writeReg number w :: _ => if number = cmdNumber then (decode w).toOption else none
  | _ => none

/-- The next host action is the reset event. -/
abbrev State.nextIsReset (s : State) : Prop := s.pending.head? = some .reset

/-! ### Registers and commands by class -/

/-- Read-only to the host (10_state.md R22). -/
def Reg.readOnly : Reg → Bool
  | .id | .status | .hcode | .hex _ | .h _ | .elen | .ecnt | .ebuf _ => true
  | .cmd | .seed1 | .seed2 | .srcAddr | .srcLen | .dig1 | .dig2 | .cmp1 | .cmp2 | .v _ | .w _ => false

/-- Read-write for the host (10_state.md R22). `CMD` is neither: a write of it executes. -/
def Reg.readWrite : Reg → Bool
  | .seed1 | .seed2 | .srcAddr | .srcLen | .dig1 | .dig2 | .cmp1 | .cmp2 | .v _ | .w _ => true
  | .id | .cmd | .status | .hcode | .hex _ | .h _ | .elen | .ecnt | .ebuf _ => false

/-- The commands that hash a span in one command (41_mixer_oneshot.md), by their `N` bit. -/
def oneShots : List (Bool → Instr) := [.short, .long, .hash128, .hash64, .hash32]

/-- The commands that read the message memory (20_memory.md R61), by their `N` bit. -/
def spanReaders : List (Bool → Instr) := oneShots ++ [.update, .dparse, .dtryparse]

/-- The mixer primitives (40_mixer_primitives.md). -/
def isMixer : Instr → Bool
  | .rotl _ _ | .shortMix | .shortEnd | .mix | .endPartial | .endMix => true
  | .nop | .short _ | .long _ | .hash128 _ | .hash64 _ | .hash32 _ | .init | .update _ | .final | .dzero
    | .dtohex | .dparse _ | .dtryparse _ | .deq | .dhash => false

/-- The engine commands (42_engine.md). -/
def isEngine : Instr → Bool
  | .init | .update _ | .final => true
  | .nop | .rotl _ _ | .shortMix | .shortEnd | .mix | .endPartial | .endMix | .short _ | .long _ | .hash128 _
    | .hash64 _ | .hash32 _ | .dzero | .dtohex | .dparse _ | .dtryparse _ | .deq | .dhash => false

/-- The commands that write the engine (42_engine.md R160). -/
def writesEngine : Instr → Bool
  | .init | .update _ => true
  | .nop | .rotl _ _ | .shortMix | .shortEnd | .mix | .endPartial | .endMix | .short _ | .long _ | .hash128 _
    | .hash64 _ | .hash32 _ | .final | .dzero | .dtohex | .dparse _ | .dtryparse _ | .deq | .dhash => false

/-- The parsing commands (10_state.md R29). -/
def isParse : Instr → Bool
  | .dparse _ | .dtryparse _ => true
  | .nop | .rotl _ _ | .shortMix | .shortEnd | .mix | .endPartial | .endMix | .short _ | .long _ | .hash128 _
    | .hash64 _ | .hash32 _ | .init | .update _ | .final | .dzero | .dtohex | .deq | .dhash => false

/-- The commands that write the digest latch (10_state.md R33). -/
def writesLatch : Instr → Bool
  | .short _ | .long _ | .hash128 _ | .hash64 _ | .hash32 _ | .final | .dzero | .dparse _ | .dtryparse _ => true
  | .nop | .rotl _ _ | .shortMix | .shortEnd | .mix | .endPartial | .endMix | .init | .update _ | .dtohex | .deq
    | .dhash => false

/-! ### Encodings -/

/-- The command `i` has the word `w`, and the assembler spells it `text` (30_encoding.md R88, R90). -/
abbrev EncodedAs (i : Instr) (w : Word) (text : String) : Prop :=
  encode i = w ∧ decode w = .ok i ∧ asmText i = text

/-- Every word with opcode `op` outside `legal` raises `IllegalCommand`: only `ERR` and the `CMD` read-back change
(30_encoding.md R87, 60_exceptions.md R235). -/
def IllegalBeside (op : BitVec 8) (legal : Word → Prop) : Prop :=
  ∀ (w : Word) (s : State), opField w = op → ¬ legal w → runCommand w s = .next { s with cmd := w, err := 4 }

/-! ### The engine over the message it has absorbed -/

/-- 42_engine.md R162: the engine holds the message `m` fed since an `INIT` with seeds `s1`, `s2`. -/
def Engine.Holds (e : Engine) (s1 s2 : Word) (m : List Byte) : Prop :=
  e.elen.toNat = m.length ∧ e.ecnt.toNat ≤ 191 ∧
  (m.length < 192 →
    e.ecnt.toNat = m.length ∧ bufferSlice e.ebuf 0 e.ecnt.toNat = m ∧ e.h[0] = s1 ∧ e.h[1] = s2) ∧
  (192 ≤ m.length →
    e.ecnt.toNat + 192 ≤ m.length ∧ (m.length - e.ecnt.toNat) % 96 = 0 ∧
    bufferSlice e.ebuf 0 e.ecnt.toNat = m.drop (m.length - e.ecnt.toNat) ∧
    e.h = mixBlocks ((m.length - e.ecnt.toNat) / 96) m (seedState s1 s2))

/-- A count a run can reach: at most 191 buffered bytes, all of the message while it is below 192 (R162). -/
def Engine.coherent (e : Engine) : Prop :=
  e.ecnt.toNat ≤ 191 ∧ (e.elen.toNat < 192 → e.ecnt.toNat = e.elen.toNat)

/-- Two engines that differ at most in what no command reads: the stale bytes (10_state.md R44) and, in the buffering
phase, `H2`–`H11` (10_state.md R39). -/
def Engine.agrees (a b : Engine) : Prop :=
  a.elen = b.elen ∧ a.ecnt = b.ecnt ∧ bufferSlice a.ebuf 0 a.ecnt.toNat = bufferSlice b.ebuf 0 b.ecnt.toNat ∧
  a.h[0] = b.h[0] ∧ a.h[1] = b.h[1] ∧ (192 ≤ a.elen.toNat → a.h = b.h)

/-- The states of a run in which the message `m` has been fed to the engine since an `INIT` under seeds `s1`, `s2`, with
any other host actions, refused `UPDATE`s and `FINAL`s in between (42_engine.md R170); a reset counts as an `INIT` under
seeds (0, 0) (42_engine.md R162, 70_reset_and_hazards.md R262). -/
inductive EngineStream (s1 s2 : Word) : List Byte → State → Prop where
  | start {s t : State} : s.nextCommand = some .init → s.seed1 = s1 → s.seed2 = s2 → step s = .next t →
      EngineStream s1 s2 [] t
  | powerOn {c : Config} {actions : List HostAction} : s1 = 0 → s2 = 0 →
      EngineStream s1 s2 [] { State.resetWith c with pending := actions }
  | reset {s t : State} : s.nextIsReset → s1 = 0 → s2 = 0 → step s = .next t → EngineStream s1 s2 [] t
  | feed {m d : List Byte} {s t : State} {n : Bool} : EngineStream s1 s2 m s → s.nextCommand = some (.update n) →
      messageOperand n s = .ok d → step s = .next t → EngineStream s1 s2 (m ++ d) t
  | refusedFeed {m : List Byte} {s t : State} {n : Bool} {e : CmdError} : EngineStream s1 s2 m s →
      s.nextCommand = some (.update n) → messageOperand n s = .error e → step s = .next t → EngineStream s1 s2 m t
  | other {m : List Byte} {s t : State} : EngineStream s1 s2 m s → s.nextCommand ≠ some .init →
      (∀ n, s.nextCommand ≠ some (.update n)) → ¬ s.nextIsReset → step s = .next t → EngineStream s1 s2 m t

/-! ### Digest text -/

/-- `WS* HD` repeated: each digit after its whitespace. -/
def gapped (l : List (List Byte × Byte)) : List Byte := l.flatMap fun p => p.1 ++ [p.2]

/-- The language `WS* ( "0" ("x" | "X") )? HD ( WS* HD ){31} WS*` with the digit values it spells (43_digest.md R192). -/
def DigestText (t : List Byte) (ds : List (BitVec 4)) : Prop :=
  ∃ (lead marker : List Byte) (first : Byte) (rest : List (List Byte × Byte)) (trail : List Byte),
    (∀ b ∈ lead, isSpace b) ∧ (marker = [] ∨ marker = [0x30, 0x78] ∨ marker = [0x30, 0x58]) ∧
    rest.length = 31 ∧ (∀ p ∈ rest, ∀ b ∈ p.1, isSpace b) ∧ (∀ b ∈ trail, isSpace b) ∧
    t = lead ++ marker ++ [first] ++ gapped rest ++ trail ∧
    (first :: rest.map Prod.snd).map digitValue = ds.map some

/-- `sum over k in 0..31 of d[k] << (4 * (31 - k))` (43_digest.md R192). -/
def digitSum (ds : List (BitVec 4)) : BitVec 128 :=
  ((List.range 32).map fun k => (ds.getD k 0).setWidth 128 <<< (4 * (31 - k))).sum

/-- The 32 digit values of a digest, first digit most significant (43_digest.md R191). -/
def nibbles (d : Digest) : List (BitVec 4) :=
  (List.range 32).map fun i => (d.1 ++ d.2).extractLsb' (124 - 4 * i) 4

/-- The text a host reads from `HEX0`–`HEX3`: their bytes in order, low byte first (43_digest.md R197). -/
def hexBytes (hex : Vector Word 4) : List Byte :=
  (List.range 32).map fun i => byteOf (hex.toList.getD (i / 8) 0) (i % 8)

/-! ### The mixing functions written out -/

/-- `ShortMix` as the twelve lines of 40_mixer_primitives.md R102. -/
def shortMixSpelled (h0 h1 h2 h3 : Word) : Vector Word 4 :=
  let h2 := rotl64 h2 50; let h2 := h2 + h3; let h0 := h0 ^^^ h2
  let h3 := rotl64 h3 52; let h3 := h3 + h0; let h1 := h1 ^^^ h3
  let h0 := rotl64 h0 30; let h0 := h0 + h1; let h2 := h2 ^^^ h0
  let h1 := rotl64 h1 41; let h1 := h1 + h2; let h3 := h3 ^^^ h1
  let h2 := rotl64 h2 54; let h2 := h2 + h3; let h0 := h0 ^^^ h2
  let h3 := rotl64 h3 48; let h3 := h3 + h0; let h1 := h1 ^^^ h3
  let h0 := rotl64 h0 38; let h0 := h0 + h1; let h2 := h2 ^^^ h0
  let h1 := rotl64 h1 37; let h1 := h1 + h2; let h3 := h3 ^^^ h1
  let h2 := rotl64 h2 62; let h2 := h2 + h3; let h0 := h0 ^^^ h2
  let h3 := rotl64 h3 34; let h3 := h3 + h0; let h1 := h1 ^^^ h3
  let h0 := rotl64 h0 5; let h0 := h0 + h1; let h2 := h2 ^^^ h0
  let h1 := rotl64 h1 36; let h1 := h1 + h2; let h3 := h3 ^^^ h1
  #v[h0, h1, h2, h3]

/-- `ShortEnd` as the eleven lines of 40_mixer_primitives.md R103. -/
def shortEndSpelled (h0 h1 h2 h3 : Word) : Vector Word 4 :=
  let h3 := h3 ^^^ h2; let h2 := rotl64 h2 15; let h3 := h3 + h2
  let h0 := h0 ^^^ h3; let h3 := rotl64 h3 52; let h0 := h0 + h3
  let h1 := h1 ^^^ h0; let h0 := rotl64 h0 26; let h1 := h1 + h0
  let h2 := h2 ^^^ h1; let h1 := rotl64 h1 51; let h2 := h2 + h1
  let h3 := h3 ^^^ h2; let h2 := rotl64 h2 28; let h3 := h3 + h2
  let h0 := h0 ^^^ h3; let h3 := rotl64 h3 9; let h0 := h0 + h3
  let h1 := h1 ^^^ h0; let h0 := rotl64 h0 47; let h1 := h1 + h0
  let h2 := h2 ^^^ h1; let h1 := rotl64 h1 54; let h2 := h2 + h1
  let h3 := h3 ^^^ h2; let h2 := rotl64 h2 32; let h3 := h3 + h2
  let h0 := h0 ^^^ h3; let h3 := rotl64 h3 25; let h0 := h0 + h3
  let h1 := h1 ^^^ h0; let h0 := rotl64 h0 63; let h1 := h1 + h0
  #v[h0, h1, h2, h3]

/-- `Mix` as the twelve lines of 40_mixer_primitives.md R104. -/
def mixSpelled (d0 d1 d2 d3 d4 d5 d6 d7 d8 d9 d10 d11 : Word) (h0 h1 h2 h3 h4 h5 h6 h7 h8 h9 h10 h11 : Word) :
    Vector Word 12 :=
  let h0 := h0 + d0; let h2 := h2 ^^^ h10; let h11 := h11 ^^^ h0; let h0 := rotl64 h0 11; let h11 := h11 + h1
  let h1 := h1 + d1; let h3 := h3 ^^^ h11; let h0 := h0 ^^^ h1; let h1 := rotl64 h1 32; let h0 := h0 + h2
  let h2 := h2 + d2; let h4 := h4 ^^^ h0; let h1 := h1 ^^^ h2; let h2 := rotl64 h2 43; let h1 := h1 + h3
  let h3 := h3 + d3; let h5 := h5 ^^^ h1; let h2 := h2 ^^^ h3; let h3 := rotl64 h3 31; let h2 := h2 + h4
  let h4 := h4 + d4; let h6 := h6 ^^^ h2; let h3 := h3 ^^^ h4; let h4 := rotl64 h4 17; let h3 := h3 + h5
  let h5 := h5 + d5; let h7 := h7 ^^^ h3; let h4 := h4 ^^^ h5; let h5 := rotl64 h5 28; let h4 := h4 + h6
  let h6 := h6 + d6; let h8 := h8 ^^^ h4; let h5 := h5 ^^^ h6; let h6 := rotl64 h6 39; let h5 := h5 + h7
  let h7 := h7 + d7; let h9 := h9 ^^^ h5; let h6 := h6 ^^^ h7; let h7 := rotl64 h7 57; let h6 := h6 + h8
  let h8 := h8 + d8; let h10 := h10 ^^^ h6; let h7 := h7 ^^^ h8; let h8 := rotl64 h8 55; let h7 := h7 + h9
  let h9 := h9 + d9; let h11 := h11 ^^^ h7; let h8 := h8 ^^^ h9; let h9 := rotl64 h9 54; let h8 := h8 + h10
  let h10 := h10 + d10; let h0 := h0 ^^^ h8; let h9 := h9 ^^^ h10; let h10 := rotl64 h10 22; let h9 := h9 + h11
  let h11 := h11 + d11; let h1 := h1 ^^^ h9; let h10 := h10 ^^^ h11; let h11 := rotl64 h11 46; let h10 := h10 + h0
  #v[h0, h1, h2, h3, h4, h5, h6, h7, h8, h9, h10, h11]

/-- `EndPartial` as the twelve lines of 40_mixer_primitives.md R105. -/
def endPartialSpelled (h0 h1 h2 h3 h4 h5 h6 h7 h8 h9 h10 h11 : Word) : Vector Word 12 :=
  let h11 := h11 + h1; let h2 := h2 ^^^ h11; let h1 := rotl64 h1 44
  let h0 := h0 + h2; let h3 := h3 ^^^ h0; let h2 := rotl64 h2 15
  let h1 := h1 + h3; let h4 := h4 ^^^ h1; let h3 := rotl64 h3 34
  let h2 := h2 + h4; let h5 := h5 ^^^ h2; let h4 := rotl64 h4 21
  let h3 := h3 + h5; let h6 := h6 ^^^ h3; let h5 := rotl64 h5 38
  let h4 := h4 + h6; let h7 := h7 ^^^ h4; let h6 := rotl64 h6 33
  let h5 := h5 + h7; let h8 := h8 ^^^ h5; let h7 := rotl64 h7 10
  let h6 := h6 + h8; let h9 := h9 ^^^ h6; let h8 := rotl64 h8 13
  let h7 := h7 + h9; let h10 := h10 ^^^ h7; let h9 := rotl64 h9 38
  let h8 := h8 + h10; let h11 := h11 ^^^ h8; let h10 := rotl64 h10 53
  let h9 := h9 + h11; let h0 := h0 ^^^ h9; let h11 := rotl64 h11 42
  let h10 := h10 + h0; let h1 := h1 ^^^ h10; let h0 := rotl64 h0 54
  #v[h0, h1, h2, h3, h4, h5, h6, h7, h8, h9, h10, h11]

/-- The twelve lines of `Mix` on a data block and a state. -/
def mixLines (d h : Vector Word 12) : Vector Word 12 :=
  mixSpelled d[0] d[1] d[2] d[3] d[4] d[5] d[6] d[7] d[8] d[9] d[10] d[11]
    h[0] h[1] h[2] h[3] h[4] h[5] h[6] h[7] h[8] h[9] h[10] h[11]

/-- The twelve lines of `EndPartial` on a state. -/
def endPartialLines (h : Vector Word 12) : Vector Word 12 :=
  endPartialSpelled h[0] h[1] h[2] h[3] h[4] h[5] h[6] h[7] h[8] h[9] h[10] h[11]

end Sys2Proof.Machine
end

