-- ==== Sys2Proof/Certificates/Slice0/Obligations.lean ====
section
/-! DEFINITION. The statements for the provers. Each docstring names the rule of spec/ the statement formalises. The
state of a premise is any state: the parameters `MSG_SIZE` and `MSG_INIT` (`State.cfg`) are universally quantified with
it. -/

open Sys2Proof Sys2Proof.Machine

/-! ### Host port and register space -/

/-- 10_state.md R24. `ID` reads as its hardwired value, "SPOOKY" then 0002, in every state; a host write of it is
ignored and no command changes it. -/
def Obligations.HardwiredIdReadsAsSpooky : Prop :=
  ∀ (s : State) (rest : List HostAction),
    (s.pending = .readReg 0x00 :: rest →
      step s = .next { s with pending := rest, readData := 0x53504F4F4B590002 }) ∧
    (∀ x, s.pending = .writeReg 0x00 x :: rest → step s = .next { s with pending := rest }) ∧
    (∀ i t, exec i s = .next t → t.readReg .id = 0x53504F4F4B590002) ∧
    (List.range 6).map (fun k => byteOf (s.readReg .id) (7 - k)) = asciiBytes "SPOOKY" ∧
    (s.readReg .id).extractLsb' 0 16 = 0x0002

/-- 10_state.md R25. A step on a host write of `CMD` stores the word as the read-back and runs the command it decodes
to, in one step; an illegal word is stored too and raises `IllegalCommand`; a host read of `CMD` gives the last word
written; no command writes `CMD`. -/
def Obligations.CommandWriteStoresAndRuns : Prop :=
  ∀ (s : State) (rest : List HostAction),
    (∀ w i, s.pending = .writeReg 0x01 w :: rest → decode w = .ok i →
      step s = exec i { s with pending := rest, cmd := w }) ∧
    (∀ w e, s.pending = .writeReg 0x01 w :: rest → decode w = .error e →
      step s = .next { s with pending := rest, cmd := w, err := 4 }) ∧
    (s.pending = .readReg 0x01 :: rest → step s = .next { s with pending := rest, readData := s.cmd }) ∧
    (∀ i t, exec i s = .next t → t.cmd = s.cmd)

/-- 10_state.md R22: the register numbers. Each register has the number the map gives it and no other slot; the slots
with no register are exactly the reserved ones. -/
def Obligations.RegisterMapIsExact : Prop :=
  (∀ n r, regOf n = some r ↔ n = regNumber r) ∧
  (∀ n : BitVec 8, regOf n = none ↔
    ((0x1C ≤ n.toNat ∧ n.toNat ≤ 0x1F) ∨ (0x2C ≤ n.toNat ∧ n.toNat ≤ 0x2F) ∨
     (0x3E ≤ n.toNat ∧ n.toNat ≤ 0x3F) ∨ 0x58 ≤ n.toNat))

/-- 10_state.md R23. Host writes to read-only registers and reserved slots are ignored; a reserved slot reads 0; a
narrower register reads zero-extended; a write to a read-write register takes effect at once (the next state reads the
value back, every other register as before); no host action but a `CMD` write (and reset, R260) sets `ERR` or changes a
read-only register. What each register reads as is written out (R22, R31 to R42): byte `j mod 8` of `EBUF(j div 8)` is
byte `j` of the buffer. (`ID` and `STATUS` are in `HardwiredIdReadsAsSpooky` and `StatusReadComputesLong`.) -/
def Obligations.HostRegisterAccessRules : Prop :=
  ∀ (s : State) (n : BitVec 8) (rest : List HostAction),
    (∀ x, s.pending = .writeReg n x :: rest → (regOf n = none ∨ ∃ r, regOf n = some r ∧ r.readOnly) →
      step s = .next { s with pending := rest }) ∧
    (s.pending = .readReg n :: rest → regOf n = none →
      step s = .next { s with pending := rest, readData := 0 }) ∧
    (∀ r, s.pending = .readReg n :: rest → regOf n = some r →
      step s = .next { s with pending := rest, readData := s.readReg r }) ∧
    (s.readReg .hcode).toNat = s.hcode.toNat ∧ (s.readReg .ecnt).toNat = s.eng.ecnt.toNat ∧
    (s.readReg .status).toNat < 2 ^ 7 ∧
    (∀ j : Fin 192, byteOf (s.readReg (.ebuf ⟨j.val / 8, by omega⟩)) (j.val % 8) = s.eng.ebuf[j]) ∧
    (∀ k : Fin 4, s.readReg (.hex k) = s.hex[k]) ∧
    (∀ k : Fin 12, s.readReg (.v k) = s.v[k] ∧ s.readReg (.w k) = s.w[k] ∧ s.readReg (.h k) = s.eng.h[k]) ∧
    (s.readReg .elen = s.eng.elen ∧ s.readReg .cmd = s.cmd ∧ s.readReg .seed1 = s.seed1 ∧ s.readReg .seed2 = s.seed2 ∧
      s.readReg .srcAddr = s.srcAddr ∧ s.readReg .srcLen = s.srcLen ∧ s.readReg .dig1 = s.dig1 ∧
      s.readReg .dig2 = s.dig2 ∧ s.readReg .cmp1 = s.cmp1 ∧ s.readReg .cmp2 = s.cmp2) ∧
    (∀ x r, s.pending = .writeReg n x :: rest → regOf n = some r → r.readWrite →
      ∃ t, step s = .next t ∧ t.readReg r = x ∧ (∀ q, q ≠ r → t.readReg q = s.readReg q) ∧
        t.cfg = s.cfg ∧ t.msg = s.msg ∧ t.pending = rest ∧ t.readData = s.readData) ∧
    (∀ t, (∀ w, s.pending.head? ≠ some (.writeReg 0x01 w)) → ¬ s.nextIsReset → step s = .next t →
      t.err = s.err ∧ ∀ q : Reg, q.readOnly → t.readReg q = s.readReg q)

/-- 10_state.md R30 (and the layout of R26). A read of `STATUS` gives `ERR`, `EQ` and `PARSED` in their bits, computes
`LONG` as `ELEN ≥ 192` from the current `ELEN`, and 0 above. -/
def Obligations.StatusReadComputesLong : Prop :=
  ∀ (s : State) (rest : List HostAction), s.pending = .readReg 0x02 :: rest →
    ∃ w : Word, step s = .next { s with pending := rest, readData := w } ∧
      (w.getLsbD 6 = true ↔ 192 ≤ s.eng.elen.toNat) ∧
      w.extractLsb' 0 4 = s.err ∧ w.getLsbD 4 = s.eq ∧ w.getLsbD 5 = s.parsed ∧ w.extractLsb' 7 57 = 0

/-- 10_state.md R27 and 60_exceptions.md R237: a command that completes leaves `ERR` = 0; a command that raises an error
writes that error's code and nothing else. Through the port, the `CMD` read-back is the one other change. -/
def Obligations.CommandClearsErrOrOnlySetsIt : Prop :=
  (∀ i s t, exec i s = .next t → t.err = 0 ∨ ∃ e : CmdError, t = { s with err := e.code }) ∧
  (∀ (s t : State) (w : Word) (rest : List HostAction), s.pending = .writeReg 0x01 w :: rest → step s = .next t →
    t.err = 0 ∨ ∃ e : CmdError, t = { s with pending := rest, cmd := w, err := e.code })

/-- 10_state.md R28. Apart from reset (R260), `STATUS.EQ` changes only at a step that runs a legal `DEQ`. -/
def Obligations.EqChangesOnlyWhenDeqCompletes : Prop :=
  ∀ s t, step s = .next t → t.eq ≠ s.eq →
    (s.nextCommand = some .deq ∧ t.err = 0) ∨ s.nextIsReset

/-- 10_state.md R29. Apart from reset (R260), `STATUS.PARSED` changes only at a step at which a `DPARSE` completes (it
becomes 1) or a `DTRYPARSE` completes; a `DPARSE` or `DTRYPARSE` that raises an error leaves it. -/
def Obligations.ParsedChangesOnlyWhenParseCompletes : Prop :=
  ∀ s t, step s = .next t → ¬ s.nextIsReset →
    (t.parsed ≠ s.parsed → ∃ i, s.nextCommand = some i ∧ isParse i ∧ t.err = 0) ∧
    (∀ n, s.nextCommand = some (.dparse n) → t.err = 0 → t.parsed = true) ∧
    (∀ n, s.nextCommand = some (.dtryparse n) → t.err = 0 →
      (t.parsed = true ↔ n = false ∧ (parseText s.spanBytes).isSome))

/-- 30_encoding.md section 3, the implicit writes of each opcode (also 10_state.md sections 3 and 4): a result register
changes only by the commands that have it in that column. -/
def Obligations.RegistersChangeOnlyByTheirCommands : Prop :=
  ∀ i s t, exec i s = .next t →
    ((t.dig1 ≠ s.dig1 ∨ t.dig2 ≠ s.dig2) → writesLatch i) ∧
    (t.hcode ≠ s.hcode → i = .dhash) ∧ (t.hex ≠ s.hex → i = .dtohex) ∧
    (t.v ≠ s.v → isMixer i) ∧ (t.eng ≠ s.eng → writesEngine i) ∧
    (t.eq ≠ s.eq → i = .deq) ∧ (t.parsed ≠ s.parsed → isParse i)

/-- 10_state.md R34 and R38, with 20_memory.md section 3: no command writes the comparison digest, the data words, the
seeds, the span registers, the parameters or any byte of the message memory, or touches the host port. -/
def Obligations.CommandsLeaveHostOperandsAndMemory : Prop :=
  ∀ i s t, exec i s = .next t →
    t.cmp1 = s.cmp1 ∧ t.cmp2 = s.cmp2 ∧ t.w = s.w ∧ t.seed1 = s.seed1 ∧ t.seed2 = s.seed2 ∧
    t.srcAddr = s.srcAddr ∧ t.srcLen = s.srcLen ∧ t.cfg = s.cfg ∧ t.cmd = s.cmd ∧
    t.pending = s.pending ∧ t.readData = s.readData ∧ (∀ a, t.msgByte a = s.msgByte a)

/-- 93_implementation_defined.md section 2: "every command word in every state has a defined outcome". Every step of
every state answers a next state. (That a step with no host action waits is the model's choice, log 1.) -/
def Obligations.EveryStepAnswersANextState : Prop :=
  ∀ s, ∃ t, step s = .next t

/-! ### Message memory -/

/-- 20_memory.md R64. A host byte write inside the memory stores the byte and leaves every other byte; outside it is
ignored; a byte read gives the byte, or 0 outside; neither changes `STATUS` or raises an error; no command writes
`MSG`. (`Memory.wf`, the canonical form of the model's memory, is kept by every step: `EveryStepKeepsTheInvariant`.) -/
def Obligations.HostMessageByteAccess : Prop :=
  ∀ (s : State) (a : Nat) (rest : List HostAction),
    (∀ x, s.pending = .writeMsg a x :: rest → a < s.cfg.msgSize → Memory.wf s.cfg s.msg →
      ∃ t, step s = .next t ∧ t.msgByte a = x ∧ (∀ b, b ≠ a → t.msgByte b = s.msgByte b) ∧
        t = { s with pending := rest, msg := t.msg }) ∧
    (∀ x, s.pending = .writeMsg a x :: rest → s.cfg.msgSize ≤ a → step s = .next { s with pending := rest }) ∧
    (s.pending = .readMsg a :: rest →
      step s = .next { s with pending := rest,
                              readData := if a < s.cfg.msgSize then (s.msgByte a).setWidth 64 else 0 }) ∧
    (∀ i t, exec i s = .next t → t.msg = s.msg)

/-- 20_memory.md R66. Every command that reads `MSG` checks its span first: with `N = 1` no byte is read and `SRC_ADDR`
is ignored; with `N = 0` a span that leaves the memory as an exact sum raises `OutOfRange`, else the data are the bytes
of the span; an empty span at an address up to `MSG_SIZE` passes, and an address above it fails even for length 0. -/
def Obligations.SpanCheckGuardsEveryMessageRead : Prop :=
  ∀ (s : State), ∀ f ∈ spanReaders,
    (∀ (a : Word) (m : Memory) (t : State), exec (f true) s = .next t →
      exec (f true) { s with srcAddr := a, msg := m } = .next { t with srcAddr := a, msg := m }) ∧
    (s.cfg.msgSize < s.srcAddr.toNat + s.srcLen.toNat → exec (f false) s = .next { s with err := 2 }) ∧
    (s.srcAddr.toNat + s.srcLen.toNat ≤ s.cfg.msgSize →
      spanOperand s = .ok (s.msgBytes s.srcAddr.toNat s.srcLen.toNat) ∧
      (∀ t, exec (f false) s = .next t → t.err ≠ 2)) ∧
    (s.srcLen = 0 → s.srcAddr.toNat ≤ s.cfg.msgSize → spanOperand s = .ok []) ∧
    (s.cfg.msgSize < s.srcAddr.toNat → exec (f false) s = .next { s with err := 2 })

/-- 20_memory.md section 4 and 41_mixer_oneshot.md section 4: what a command that reads `MSG` does depends on the
message only through the bytes of its span, wherever they lie: moving the same bytes to another address, and any change
of the bytes outside the span, changes nothing else. -/
def Obligations.ReadersDependOnlyOnTheSpanBytes : Prop :=
  ∀ (s : State) (a : Word) (m : Memory) (n : Bool), ∀ f ∈ spanReaders, ∀ t,
    s.spanInRange → a.toNat + s.srcLen.toNat ≤ s.cfg.msgSize →
    (∀ k < s.srcLen.toNat, Memory.read s.cfg m (a.toNat + k) = s.msgByte (s.srcAddr.toNat + k)) →
    exec (f n) s = .next t →
    exec (f n) { s with srcAddr := a, msg := m } = .next { t with srcAddr := a, msg := m }

/-! ### Notation -/

/-- 00_scope.md R13. `le64` of at most 8 bytes is the sum of its shifted bytes, so byte `i` lands in bits [8i+7 : 8i]
and missing bytes are 0; `le32` is the same for at most 4 bytes. -/
def Obligations.LittleEndianAssemblyIsTheByteSum : Prop :=
  ∀ t : List Byte,
    (t.length ≤ 8 →
      le64 t = ((List.range t.length).map fun i => (t.getD i 0).setWidth 64 <<< (8 * i)).sum ∧
      ∀ i < 8, byteOf (le64 t) i = t.getD i 0) ∧
    (t.length ≤ 4 →
      le32 t = ((List.range t.length).map fun i => (t.getD i 0).setWidth 32 <<< (8 * i)).sum ∧
      le32 t = (le64 t).extractLsb' 0 32)

/-- 00_scope.md R15. `rotl64(x, k)` by the formula, so bit `i` comes from bit `i - k` mod 64; every rotate amount of the
algorithm is from 1 to 63. -/
def Obligations.RotationMovesEveryBit : Prop :=
  (∀ (x : Word) (k : Nat),
    rotl64 x k = (if k % 64 = 0 then x else (x <<< (k % 64)) ||| (x >>> (64 - k % 64))) ∧
    ∀ i < 64, (rotl64 x k).getLsbD i = x.getLsbD ((i + (64 - k % 64)) % 64)) ∧
  (∀ r ∈ shortMixRot ++ shortEndRot ++ mixRot ++ endRot, 1 ≤ r ∧ r ≤ 63)

/-! ### Encoding -/

/-- 30_encoding.md sections 1 and 4: decoding the word of a well-formed command gives it back, with every operand at every
value. -/
def Obligations.DecodeOfEncodeIsTheCommand : Prop :=
  ∀ i, WellFormed i → decode (encode i) = .ok i

/-- 30_encoding.md sections 1 and 4: a word the decoder accepts is well-formed and is the one word of its command: no bit
is dropped. -/
def Obligations.DecodedWordIsItsEncoding : Prop :=
  ∀ w i, decode w = .ok i → WellFormed i ∧ encode i = w

/-- 30_encoding.md R87 with the match and mask columns of R88: the decoder accepts exactly the legal words; any other
word raises `IllegalCommand` and changes nothing but `ERR` and the `CMD` read-back. -/
def Obligations.LegalWordsAreExactlyTheTable : Prop :=
  ∀ w : Word,
    ((∃ i, decode w = .ok i) ↔ legalWord w) ∧
    (¬ legalWord w → ∀ (s : State) (rest : List HostAction), s.pending = .writeReg 0x01 w :: rest →
      step s = .next { s with pending := rest, cmd := w, err := 4 })

/-- 30_encoding.md section 3: no word matches two rows of the opcode map. -/
def Obligations.OpcodeRowsNeverOverlap : Prop :=
  opcodeRows.Pairwise fun a b => ∀ w : Word, a.hits w → ¬ b.hits w

/-- 30_encoding.md sections 3 and 4 and 95_test_vectors.md section 6: some words written out. -/
def Obligations.DecodesTheWordsOfTheSpec : Prop :=
  decode 0x000000000B030010 = .ok (.rotl 3 11) ∧ decode 0x0000000000000021 = .ok (.update false) ∧
  decode 0x0000000000000121 = .ok (.update true) ∧ decode 0x000000000000011A = .ok (.hash128 true) ∧
  decode 0x0000000000000034 = .ok .deq ∧ decode 0x0000000000000100 = .error .reservedBits ∧
  decode 0x000000000B0C0010 = .error .badRegister ∧ decode 0x000000004B030010 = .error .reservedBits ∧
  decode 0x00000000000000FF = .error .reservedOpcode

/-- 30_encoding.md section 4, `ROTR`. `ROTR V<r>, <k>` expands to `ROTL V<r>, (64 - k) mod 64` (R92's own words) and
rotates the register right by `k`, which R92 gives as an inference of its own ("[derived: from 40_mixer_primitives.md
rule R101]"). -/
def Obligations.RotrRotatesRight : Prop :=
  ∀ (r : Fin 12) (k : BitVec 6) (s : State),
    rotrInstr (BitVec.ofNat 4 r.val) k = .rotl (BitVec.ofNat 4 r.val) (BitVec.ofNat 6 ((64 - k.toNat) % 64)) ∧
    (AsmLine.rotr (BitVec.ofNat 4 r.val) k).actions =
      [.writeReg 0x01 (encode (rotrInstr (BitVec.ofNat 4 r.val) k))] ∧
    ∃ t, exec (rotrInstr (BitVec.ofNat 4 r.val) k) s = .next t ∧ t = { s with v := t.v, err := 0 } ∧
      t.v[r] = s.v[r].rotateRight k.toNat ∧ ∀ j : Fin 12, j ≠ r → t.v[j] = s.v[j]

/-! ### Control and mixer commands -/

/-- 44_control.md R220. `NOP`: its one word, its spelling, every other word of its opcode illegal, and its one effect:
`ERR` is cleared. -/
def Obligations.NopOnlyClearsErr : Prop :=
  EncodedAs .nop 0 "NOP" ∧ IllegalBeside 0x00 (· = 0) ∧
  (∀ s : State, exec .nop s = .next { s with err := 0 }) ∧
  (∀ s : State, runCommand 0 s = .next { s with cmd := 0, err := 0 })

/-- 40_mixer_primitives.md section 2, `ROTL`. Its words, spelling and illegal words (a `REG` above 11 or a reserved
bit); it rotates `V[REG]` left by `SH`, clears `ERR` and changes nothing else; amount 0 changes no register; `k` then
`64 - k` restores the register. Two clauses are the model's, not the spec's: the decimal spelling of the amount (log 11,
DESIGN CHOICE), and that the term with a `REG` of 12..15, which no word decodes to, raises the error a word with that
field raises and does nothing else (log 5, DEDUCED from 30_encoding.md R84 and R87). -/
def Obligations.RotlRotatesOneRegister : Prop :=
  (∀ (r : Fin 12) (sh : BitVec 6),
    EncodedAs (.rotl (BitVec.ofNat 4 r.val) sh) (0x10 + (BitVec.ofNat 64 r.val <<< 16) + (sh.setWidth 64 <<< 24))
      ("ROTL V" ++ toString r.val ++ ", " ++ toString sh.toNat)) ∧
  IllegalBeside 0x10 (fun w => w &&& 0xFFFFFFFFC0F0FFFF = 0x10 ∧ (w.extractLsb' 16 4).toNat ≤ 11) ∧
  (∀ (r : Fin 12) (sh : BitVec 6) (s : State),
    ∃ t, exec (.rotl (BitVec.ofNat 4 r.val) sh) s = .next t ∧ t = { s with v := t.v, err := 0 } ∧
      t.v[r] = rotl64 s.v[r] sh.toNat ∧ t.v[r] = s.v[r].rotateLeft sh.toNat ∧
      (∀ j : Fin 12, j ≠ r → t.v[j] = s.v[j]) ∧ (sh = 0 → t.v = s.v) ∧
      (sh ≠ 0 → ∃ u, exec (.rotl (BitVec.ofNat 4 r.val) (BitVec.ofNat 6 (64 - sh.toNat))) t = .next u ∧ u.v = s.v)) ∧
  (∀ (reg : BitVec 4) (sh : BitVec 6) (s : State), 11 < reg.toNat →
    exec (.rotl reg sh) s = .next { s with err := 4 }) ∧
  rotl64 0x0123456789ABCDEF 11 = 0x1A2B3C4D5E6F7809

/-- 40_mixer_primitives.md sections 1 and 2, `SHORTMIX` and `SHORTEND`: the loop form each command runs is the
written-out form; each writes `V0`–`V3` with it, clears `ERR` and changes nothing else (`V4`–`V11` stay). -/
def Obligations.ShortMixAndShortEndWrittenOut : Prop :=
  ∀ s : State,
    (∃ t, exec .shortMix s = .next t ∧ t = { s with v := t.v, err := 0 } ∧
      (#v[t.v[0], t.v[1], t.v[2], t.v[3]] : Vector Word 4) = shortMixSpelled s.v[0] s.v[1] s.v[2] s.v[3] ∧
      ∀ j : Fin 12, 4 ≤ j.val → t.v[j] = s.v[j]) ∧
    (∃ t, exec .shortEnd s = .next t ∧ t = { s with v := t.v, err := 0 } ∧
      (#v[t.v[0], t.v[1], t.v[2], t.v[3]] : Vector Word 4) = shortEndSpelled s.v[0] s.v[1] s.v[2] s.v[3] ∧
      ∀ j : Fin 12, 4 ≤ j.val → t.v[j] = s.v[j])

/-- 40_mixer_primitives.md section 2, `MIX`: the loop form is the written-out form of its twelve lines; the command
writes `V` with it, clears `ERR` and changes nothing else (`W` stays). -/
def Obligations.MixWrittenOut : Prop :=
  ∀ s : State,
    exec .mix s = .next { s with
      v := mixSpelled s.w[0] s.w[1] s.w[2] s.w[3] s.w[4] s.w[5] s.w[6] s.w[7] s.w[8] s.w[9] s.w[10] s.w[11]
        s.v[0] s.v[1] s.v[2] s.v[3] s.v[4] s.v[5] s.v[6] s.v[7] s.v[8] s.v[9] s.v[10] s.v[11],
      err := 0 }

/-- 40_mixer_primitives.md section 2, `ENDPARTIAL` and `END`: the loop form of a round is its twelve written-out lines;
`END` adds `W` word by word and then equals three rounds, so with `W` all zero it equals three `ENDPARTIAL` commands. -/
def Obligations.EndPartialAndEndWrittenOut : Prop :=
  (∀ s : State,
    exec .endPartial s = .next { s with
      v := endPartialSpelled s.v[0] s.v[1] s.v[2] s.v[3] s.v[4] s.v[5] s.v[6] s.v[7] s.v[8] s.v[9] s.v[10] s.v[11],
      err := 0 }) ∧
  (∀ s t1 t2 t3 : State, exec .endPartial { s with v := s.v.zipWith (· + ·) s.w } = .next t1 →
    exec .endPartial t1 = .next t2 → exec .endPartial t2 = .next t3 → exec .endMix s = .next t3) ∧
  (∀ s t1 t2 t3 : State, s.w = Vector.replicate 12 0 → exec .endPartial s = .next t1 → exec .endPartial t1 = .next t2 →
    exec .endPartial t2 = .next t3 → exec .endMix s = .next t3) ∧
  (∀ s : State, ∃ v, exec .endMix s = .next { s with v := v, err := 0 })

/-- 40_mixer_primitives.md section 1, the two properties of the mixer's arithmetic: each function is invertible in its
state (different states go to different states) and takes the all-zero state, with all-zero data, to all zero. For `End`,
which R107 does not name, both follow from R106. -/
def Obligations.MixFunctionsInvertAndFixZero : Prop :=
  (∀ x y, shortMix x = shortMix y → x = y) ∧ (∀ x y, shortEnd x = shortEnd y → x = y) ∧
  (∀ d x y, mix d x = mix d y → x = y) ∧ (∀ x y, endPartial x = endPartial y → x = y) ∧
  (∀ d x y, endMix d x = endMix d y → x = y) ∧
  shortMix (Vector.replicate 4 0) = Vector.replicate 4 0 ∧ shortEnd (Vector.replicate 4 0) = Vector.replicate 4 0 ∧
  mix (Vector.replicate 12 0) (Vector.replicate 12 0) = Vector.replicate 12 0 ∧
  endPartial (Vector.replicate 12 0) = Vector.replicate 12 0 ∧
  endMix (Vector.replicate 12 0) (Vector.replicate 12 0) = Vector.replicate 12 0

/-! ### One-shot hashing -/

/-- 41_mixer_oneshot.md sections 1 and 3, `SHORT`, `LONG` and `HASH128`: on every message (the bytes of a span inside the
memory, or the empty message for a null reference with `SRC_LEN` = 0) each completes, puts its digest in the latch,
clears `ERR` and changes nothing else. -/
def Obligations.ShortLongHash128Complete : Prop :=
  ∀ (s : State) (n : Bool) (m : List Byte),
    ((n = true ∧ s.srcLen = 0 ∧ m = []) ∨
     (n = false ∧ s.srcAddr.toNat + s.srcLen.toNat ≤ s.cfg.msgSize ∧
      m = s.msgBytes s.srcAddr.toNat s.srcLen.toNat)) →
    exec (.short n) s = .next { s with
      dig1 := (shortHash m s.seed1 s.seed2).1, dig2 := (shortHash m s.seed1 s.seed2).2, err := 0 } ∧
    exec (.long n) s = .next { s with
      dig1 := (longHash m s.seed1 s.seed2).1, dig2 := (longHash m s.seed1 s.seed2).2, err := 0 } ∧
    exec (.hash128 n) s = .next { s with
      dig1 := (if m.length < 192 then shortHash m s.seed1 s.seed2 else longHash m s.seed1 s.seed2).1,
      dig2 := (if m.length < 192 then shortHash m s.seed1 s.seed2 else longHash m s.seed1 s.seed2).2, err := 0 }

/-- 41_mixer_oneshot.md section 3: `HASH128` is `SHORT` below 192 bytes and `LONG` from 192 on, errors included. -/
def Obligations.Hash128SelectsThePath : Prop :=
  ∀ (s : State) (n : Bool),
    (s.srcLen.toNat < 192 → exec (.hash128 n) s = exec (.short n) s) ∧
    (192 ≤ s.srcLen.toNat → exec (.hash128 n) s = exec (.long n) s)

/-- 41_mixer_oneshot.md section 3, `HASH64` and `HASH32`: `HASH64` completes with the `DIG1` of `HASH128` under
`SEED1` twice and `DIG2` = 0; `HASH32` completes with the low 32 bits of the `DIG1` of `HASH128` under `SEED1[31:0]`
twice, zero-extended, and `DIG2` = 0, so `SEED1[63:32]` never matters; neither reads `SEED2`. -/
def Obligations.Hash64AndHash32FromHash128 : Prop :=
  ∀ (s : State) (n : Bool) (m : List Byte),
    ((n = true ∧ s.srcLen = 0 ∧ m = []) ∨
     (n = false ∧ s.srcAddr.toNat + s.srcLen.toNat ≤ s.cfg.msgSize ∧
      m = s.msgBytes s.srcAddr.toNat s.srcLen.toNat)) →
    (∃ t, exec (.hash128 n) { s with seed2 := s.seed1 } = .next t ∧
      exec (.hash64 n) s = .next { s with dig1 := t.dig1, dig2 := 0, err := 0 }) ∧
    (∃ t u, exec (.hash128 n) { s with seed1 := (s.seed1.extractLsb' 0 32).setWidth 64,
                                       seed2 := (s.seed1.extractLsb' 0 32).setWidth 64 } = .next t ∧
      exec (.hash32 n) s = .next u ∧ u = { s with dig1 := u.dig1, dig2 := 0, err := 0 } ∧
      u.dig1.toNat = t.dig1.toNat % 2 ^ 32 ∧
      ∀ hi : BitVec 32, exec (.hash32 n) { s with seed1 := hi ++ s.seed1.extractLsb' 0 32 } =
        .next { u with seed1 := hi ++ s.seed1.extractLsb' 0 32 })

/-- 41_mixer_oneshot.md section 2, the Short algorithm written out (R131), its tail as a table (R132). Each 32-byte chunk,
in order: words 0 and 1 into `c` and `d`, `ShortMix` by its twelve lines, words 2 and 3 into `a` and `b`. The 16-byte
step is the first half of a chunk and runs exactly when `L mod 32 ≥ 16`, so that `r = L mod 16` bytes are left. They
enter, beside `L << 56` into `d`, as `K` and `K` (r = 0), as one word into `c` (r = 1..8), or as one word into `c` and the
rest into `d` (r = 9..15). Then `ShortEnd` by its eleven lines; `a` and `b` are the digest. -/
def Obligations.ShortTailTable : Prop :=
  (∀ (m : List Byte) (q : Vector Word 4) (k : Nat),
    let p := 32 * k
    let h := shortChunks k m q
    let x := shortMixSpelled h[0] h[1] (h[2] + le64 (slice m p (p + 8))) (h[3] + le64 (slice m (p + 8) (p + 16)))
    shortChunks 0 m q = q ∧
    shortChunks (k + 1) m q =
      #v[x[0] + le64 (slice m (p + 16) (p + 24)), x[1] + le64 (slice m (p + 24) (p + 32)), x[2], x[3]]) ∧
  (∀ (t : List Byte) (a b c d : Word),
    (t.length = 0 → shortTail t #v[a, b, c, d] = #v[a, b, c + 0xDEADBEEFDEADBEEF, d + 0xDEADBEEFDEADBEEF]) ∧
    (1 ≤ t.length → t.length ≤ 8 → shortTail t #v[a, b, c, d] = #v[a, b, c + le64 t, d]) ∧
    (9 ≤ t.length → t.length ≤ 15 →
      shortTail t #v[a, b, c, d] = #v[a, b, c + le64 (slice t 0 8), d + le64 (slice t 8 t.length)])) ∧
  (∀ (m : List Byte) (s1 s2 : Word),
    let p := 32 * (m.length / 32)
    let h := shortChunks (m.length / 32) m #v[s1, s2, 0xDEADBEEFDEADBEEF, 0xDEADBEEFDEADBEEF]
    let q := if m.length % 32 < 16 then h
      else shortMixSpelled h[0] h[1] (h[2] + le64 (slice m p (p + 8))) (h[3] + le64 (slice m (p + 8) (p + 16)))
    let tail := m.drop (m.length - m.length % 16)
    let u := shortTail tail #v[q[0], q[1], q[2], q[3] + (BitVec.ofNat 64 m.length <<< 56)]
    let out := shortEndSpelled u[0] u[1] u[2] u[3]
    shortHash m s1 s2 = (out[0], out[1]))

/-- 41_mixer_oneshot.md section 2, the Long algorithm written out (R133), with `SEEDSTATE` (00_scope.md R17) and `words`
(R14). The seeds and `K` fill the state by threes; block `k` of the message, as twelve little-endian words, enters by the
twelve lines of `Mix`; the last `L mod 96` bytes, zero-padded, with the length tag as byte 95, are added word by word; three
rounds of the twelve lines of `EndPartial` follow; words 0 and 1 are the digest. The tagged block: the message bytes first,
then zeros, and the last byte of the 96 is the count of bytes of the partial block, not the message length; for a whole
number of blocks it adds nothing. -/
def Obligations.TaggedBlockLayout : Prop :=
  (∀ s1 s2 : Word, seedState s1 s2 =
    #v[s1, s2, 0xDEADBEEFDEADBEEF, s1, s2, 0xDEADBEEFDEADBEEF, s1, s2, 0xDEADBEEFDEADBEEF,
       s1, s2, 0xDEADBEEFDEADBEEF]) ∧
  (∀ (blk : List Byte) (j : Fin 12), (words blk)[j] = le64 (slice blk (8 * j.val) (8 * j.val + 8))) ∧
  (∀ (m : List Byte) (h : Vector Word 12) (k : Nat),
    mixBlocks 0 m h = h ∧
    mixBlocks (k + 1) m h =
      mixLines (Vector.ofFn fun j => le64 (slice m (96 * k + 8 * j.val) (96 * k + 8 * j.val + 8))) (mixBlocks k m h)) ∧
  (∀ t : List Byte, t.length ≤ 95 →
    (taggedBlock t).length = 96 ∧ (∀ i < t.length, (taggedBlock t).getD i 0 = t.getD i 0) ∧
    (∀ i, t.length ≤ i → i < 95 → (taggedBlock t).getD i 0 = 0) ∧
    ((taggedBlock t).getD 95 0).toNat = t.length ∧ byteOf (words (taggedBlock t))[11] 7 = BitVec.ofNat 8 t.length) ∧
  (∀ (m : List Byte) (s1 s2 : Word),
    let h := mixBlocks (m.length / 96) m (seedState s1 s2)
    let r := m.length % 96
    let blk := m.drop (m.length - r) ++ List.replicate (95 - r) 0 ++ [BitVec.ofNat 8 r]
    let w : Vector Word 12 := Vector.ofFn fun j => le64 (slice blk (8 * j.val) (8 * j.val + 8))
    let e := endPartialLines (endPartialLines (endPartialLines (h.zipWith (· + ·) w)))
    longHash m s1 s2 = (e[0], e[1])) ∧
  (∀ (m : List Byte) (s1 s2 : Word), m.length % 96 = 0 →
    let h := mixBlocks (m.length / 96) m (seedState s1 s2)
    longHash m s1 s2 = ((endMix (Vector.replicate 12 0) h)[0], (endMix (Vector.replicate 12 0) h)[1]))

/-! ### Incremental engine -/

/-- 42_engine.md R161. `INIT`: its word, spelling and illegal words; it stores the seeds in `H0`, `H1`, clears
`H2`–`H11`, `ELEN`, `ECNT` and every byte of `EBUF`, clears `ERR` and changes nothing else. -/
def Obligations.InitStoresSeedsAndClears : Prop :=
  EncodedAs .init 0x20 "INIT" ∧ IllegalBeside 0x20 (· = 0x20) ∧
  (∀ s : State, ∃ t, exec .init s = .next t ∧ t = { s with eng := t.eng, err := 0 } ∧
    t.eng.h[0] = s.seed1 ∧ t.eng.h[1] = s.seed2 ∧ (∀ j : Fin 12, 2 ≤ j.val → t.eng.h[j] = 0) ∧
    t.eng.elen = 0 ∧ t.eng.ecnt = 0 ∧ (∀ j : Fin 192, t.eng.ebuf[j] = 0) ∧ t.eng.long = false)

/-- 42_engine.md section 2, `UPDATE`, path (a): while buffered and new bytes stay below 192 in all, the bytes go to
`EBUF[ECNT ..)`, every other buffer byte and `H` stay, and the counts grow; an empty message changes nothing but
`ERR`. -/
def Obligations.UpdateBuffersAShortMessage : Prop :=
  ∀ (s : State) (n : Bool) (m : List Byte), messageOperand n s = .ok m → s.eng.ecnt.toNat + m.length < 192 →
    (∃ t, exec (.update n) s = .next t ∧ t = { s with eng := t.eng, err := 0 } ∧ t.eng.h = s.eng.h ∧
      t.eng.ecnt.toNat = s.eng.ecnt.toNat + m.length ∧
      t.eng.elen.toNat = (s.eng.elen.toNat + m.length) % 2 ^ 64 ∧
      (∀ j : Fin 192, t.eng.ebuf[j] =
        if s.eng.ecnt.toNat ≤ j.val ∧ j.val < s.eng.ecnt.toNat + m.length then m.getD (j.val - s.eng.ecnt.toNat) 0
        else s.eng.ebuf[j])) ∧
    (m = [] → exec (.update n) s = .next { s with err := 0 })

/-- 42_engine.md section 2, `UPDATE`, paths (b) to (e): once 192 bytes are reached, the buffered bytes followed by the
new ones are absorbed block by block in message order from the live state (seeded from `H0`, `H1` while the old `ELEN`
is below 192); fewer than 96 bytes are kept at the start of `EBUF`; the other buffer bytes are what the fill left. -/
def Obligations.UpdateAbsorbsBlocksInOrder : Prop :=
  ∀ (s : State) (n : Bool) (m : List Byte), messageOperand n s = .ok m → s.eng.ecnt.toNat ≤ 191 →
    192 ≤ s.eng.ecnt.toNat + m.length →
    let all := bufferSlice s.eng.ebuf 0 s.eng.ecnt.toNat ++ m
    let live := if s.eng.elen.toNat < 192 then seedState s.eng.h[0] s.eng.h[1] else s.eng.h
    ∃ t, exec (.update n) s = .next t ∧ t = { s with eng := t.eng, err := 0 } ∧
      t.eng.ecnt.toNat = all.length % 96 ∧
      t.eng.h = mixBlocks (all.length / 96) all live ∧
      bufferSlice t.eng.ebuf 0 t.eng.ecnt.toNat = all.drop (96 * (all.length / 96)) ∧
      t.eng.elen.toNat = (s.eng.elen.toNat + m.length) % 2 ^ 64 ∧
      (∀ j : Fin 192, t.eng.ecnt.toNat ≤ j.val → t.eng.ebuf[j] =
        if s.eng.ecnt.toNat ≠ 0 ∧ s.eng.ecnt.toNat ≤ j.val then m.getD (j.val - s.eng.ecnt.toNat) 0
        else s.eng.ebuf[j])

/-- 42_engine.md section 1: the engine invariant R162 holds after reset under seeds (0, 0) and after `INIT`, and every
`UPDATE` that completes carries it from the message so far to the message with its bytes appended, while the total
length stays below 2^64. -/
def Obligations.UpdateKeepsTheEngineInvariant : Prop :=
  Engine.reset.Holds 0 0 [] ∧
  (∀ (s : State), ∃ t, exec .init s = .next t ∧ t.eng.Holds s.seed1 s.seed2 []) ∧
  (∀ (s : State) (s1 s2 : Word) (n : Bool) (m d : List Byte), s.eng.Holds s1 s2 m → messageOperand n s = .ok d →
    (m ++ d).length < 2 ^ 64 → ∃ t, exec (.update n) s = .next t ∧ t.eng.Holds s1 s2 (m ++ d))

/-- 42_engine.md R169 and section 2, `FINAL`. Non-destructive: it writes only `DIG1`, `DIG2` and `ERR`, and a second
`FINAL` gives the same digest, right after or in any later state whose engine is the same. -/
def Obligations.FinalIsNonDestructive : Prop :=
  ∀ s : State, ∃ t, exec .final s = .next t ∧ t = { s with dig1 := t.dig1, dig2 := t.dig2, err := 0 } ∧
    exec .final t = .next t ∧
    ∀ u : State, u.eng = s.eng → exec .final u = .next { u with dig1 := t.dig1, dig2 := t.dig2, err := 0 }

/-- 42_engine.md section 2, `FINAL`: on an engine that holds the message `m` under seeds `s1`, `s2`, the digest is that
of the one-shot `Hash128`. -/
def Obligations.FinalHashesTheAbsorbedMessage : Prop :=
  ∀ (s : State) (s1 s2 : Word) (m : List Byte), s.eng.Holds s1 s2 m →
    exec .final s = .next { s with
      dig1 := (hash128 m s1 s2).1, dig2 := (hash128 m s1 s2).2, err := 0 }

/-- 42_engine.md section 3, chunk invariance of the engine's functions: updating with the pieces of a message one after
another and finishing gives the one-shot digest of the whole message, however it is split. -/
def Obligations.ChunkedUpdatesEqualOneShot : Prop :=
  ∀ (s1 s2 : Word) (pieces : List (List Byte)), pieces.flatten.length < 2 ^ 64 →
    (pieces.foldl Engine.update (Engine.init s1 s2)).final = hash128 pieces.flatten s1 s2

/-- 42_engine.md section 3, chunk invariance of the machine: in every run, whatever other host actions, commands, refused
`UPDATE`s and `FINAL`s come between, a `FINAL` leaves the one-shot digest of the message fed since `INIT` (or reset, with
seeds 0). -/
def Obligations.ChunkInvarianceOfRuns : Prop :=
  ∀ (s1 s2 : Word) (m : List Byte) (s : State), EngineStream s1 s2 m s → m.length < 2 ^ 64 →
    s.nextCommand = some .final →
    ∃ t, step s = .next t ∧ (t.dig1, t.dig2) = hash128 m s1 s2 ∧ t.err = 0 ∧ t.eng = s.eng

/-- 10_state.md section 4 (stale bytes and `H2`–`H11` of the buffering phase): two engines that agree outside them
finish with the same digest, and agree again after the same `UPDATE`. -/
def Obligations.StaleBufferBytesNeverMatter : Prop :=
  ∀ a b : Engine, a.coherent → a.agrees b →
    a.final = b.final ∧ ∀ m, (a.update m).agrees (b.update m)

/-- 70_reset_and_hazards.md section 3: the mixer primitives, the one-shot commands and the digest commands work the same
whatever the engine holds, and the engine, one-shot and digest commands whatever the working registers hold. -/
def Obligations.EngineAndWorkingRegistersAreSeparate : Prop :=
  (∀ i s t, isEngine i = false → exec i s = .next t →
    ∀ e, exec i { s with eng := e } = .next { t with eng := e }) ∧
  (∀ i s t, isMixer i = false → exec i s = .next t →
    ∀ v w, exec i { s with v := v, w := w } = .next { t with v := v, w := w })

/-! ### Digest type -/

/-- 43_digest.md R190. `DZERO`: its word, spelling and illegal words; it loads `Zero` into the latch, clears `ERR` and
changes nothing else; the value is the one `DTRYPARSE` leaves on failure. -/
def Obligations.DzeroLoadsZero : Prop :=
  EncodedAs .dzero 0x30 "DZERO" ∧ IllegalBeside 0x30 (· = 0x30) ∧
  (∀ s : State, exec .dzero s = .next { s with dig1 := 0, dig2 := 0, err := 0 }) ∧
  (∀ (s : State) (n : Bool) (t : State), exec (.dtryparse n) s = .next t → t.err = 0 → t.parsed = false →
    t.dig1 = 0 ∧ t.dig2 = 0)

/-- 43_digest.md R191. `DTOHEX`: its word, spelling and illegal words; character `i` of the text is the upper-case ASCII
digit of nibble `i` of the latch, first digit most significant, in byte `i mod 8` of `HEX(i div 8)`; `ERR` is cleared
and nothing else changes. -/
def Obligations.DtohexWritesTheText : Prop :=
  EncodedAs .dtohex 0x31 "DTOHEX" ∧ IllegalBeside 0x31 (· = 0x31) ∧
  (∀ s : State, ∃ t, exec .dtohex s = .next t ∧ t = { s with hex := t.hex, err := 0 } ∧
    ∀ (k : Fin 4) (j : Fin 8),
      let nib := ((s.dig1 ++ s.dig2).extractLsb' (124 - 4 * (8 * k.val + j.val)) 4).toNat
      (byteOf t.hex[k] j.val).toNat = if nib < 10 then 0x30 + nib else 0x41 + (nib - 10)) ∧
  hexWords (0x0123456789ABCDEF, 0xFEDCBA9876543210) =
    #v[0x3736353433323130, 0x4645444342413938, 0x3839414243444546, 0x3031323334353637]

/-- 43_digest.md section 1, `ParseText`: it accepts exactly the texts of the grammar
`WS* ("0"("x"|"X"))? HD (WS* HD){31} WS*`, and its value is the sum of the shifted digits, first digit most significant,
cut into two halves. -/
def Obligations.ParseAcceptsExactlyTheGrammar : Prop :=
  ∀ (t : List Byte) (d : Digest),
    parseText t = some d ↔
      ∃ ds, DigestText t ds ∧ d = ((digitSum ds).extractLsb' 64 64, (digitSum ds).extractLsb' 0 64)

/-- 43_digest.md R193. `DPARSE`: its words, spellings and illegal words; a null reference raises `InvalidArgument`
whatever `SRC_LEN` is, a span outside the memory `OutOfRange`, a malformed text `Format`, each with no other change; a
text that parses goes to the latch, sets `PARSED` and clears `ERR`; the empty text, a text of whitespace only and a text
with a NUL byte are malformed. -/
def Obligations.DparseResults : Prop :=
  EncodedAs (.dparse false) 0x32 "DPARSE" ∧ EncodedAs (.dparse true) 0x132 "DPARSE.N" ∧
  IllegalBeside 0x32 (fun w => w = 0x32 ∨ w = 0x132) ∧
  (∀ s : State,
    exec (.dparse true) s = .next { s with err := 1 } ∧
    (s.cfg.msgSize < s.srcAddr.toNat + s.srcLen.toNat → exec (.dparse false) s = .next { s with err := 2 }) ∧
    (s.srcAddr.toNat + s.srcLen.toNat ≤ s.cfg.msgSize →
      (parseText (s.msgBytes s.srcAddr.toNat s.srcLen.toNat) = none →
        exec (.dparse false) s = .next { s with err := 3 }) ∧
      (∀ d, parseText (s.msgBytes s.srcAddr.toNat s.srcLen.toNat) = some d →
        exec (.dparse false) s = .next { s with dig1 := d.1, dig2 := d.2, parsed := true, err := 0 }))) ∧
  (∀ t : List Byte, (∀ b ∈ t, isSpace b) → parseText t = none) ∧ (∀ t : List Byte, 0x00 ∈ t → parseText t = none) ∧
  parseText (asciiBytes "  0x0000000000000000DEADBEEFDEADBEEF  ") = some (0, 0xDEADBEEFDEADBEEF)

/-- 43_digest.md R194. `DTRYPARSE`: its words, spellings and illegal words; a null reference or a malformed text is a
failure: `Zero` in the latch, `PARSED` = 0, no error; a text that parses goes to the latch with `PARSED` = 1; only a span
outside the memory is an error, with no other change; 32 zero digits and a failure differ in `PARSED` alone. -/
def Obligations.DtryparseResults : Prop :=
  EncodedAs (.dtryparse false) 0x33 "DTRYPARSE" ∧ EncodedAs (.dtryparse true) 0x133 "DTRYPARSE.N" ∧
  IllegalBeside 0x33 (fun w => w = 0x33 ∨ w = 0x133) ∧
  (∀ s : State,
    exec (.dtryparse true) s = .next { s with dig1 := 0, dig2 := 0, parsed := false, err := 0 } ∧
    (s.cfg.msgSize < s.srcAddr.toNat + s.srcLen.toNat → exec (.dtryparse false) s = .next { s with err := 2 }) ∧
    (s.srcAddr.toNat + s.srcLen.toNat ≤ s.cfg.msgSize →
      (parseText (s.msgBytes s.srcAddr.toNat s.srcLen.toNat) = none →
        exec (.dtryparse false) s = .next { s with dig1 := 0, dig2 := 0, parsed := false, err := 0 }) ∧
      (∀ d, parseText (s.msgBytes s.srcAddr.toNat s.srcLen.toNat) = some d →
        exec (.dtryparse false) s = .next { s with dig1 := d.1, dig2 := d.2, parsed := true, err := 0 }))) ∧
  parseText (List.replicate 32 0x30) = some (0, 0) ∧ parseText (asciiBytes "nothashlike") = none

/-- 43_digest.md section 1, `DEQ` (R195) and `DHASH` (R196). Their words, spellings and illegal words; `DEQ` sets `EQ`
exactly when both halves are the same bit patterns; `DHASH` copies the low 32 bits of `DIG1`; each clears `ERR` and
changes nothing else. Equal digests give equal codes: R196 gives this as an inference of its own ("[derived: from rules
R195, R196]"). -/
def Obligations.DeqAndDhashResults : Prop :=
  EncodedAs .deq 0x34 "DEQ" ∧ IllegalBeside 0x34 (· = 0x34) ∧
  EncodedAs .dhash 0x35 "DHASH" ∧ IllegalBeside 0x35 (· = 0x35) ∧
  (∀ s : State, ∃ t, exec .deq s = .next t ∧ t = { s with eq := t.eq, err := 0 } ∧
    (t.eq = true ↔ s.dig1 = s.cmp1 ∧ s.dig2 = s.cmp2)) ∧
  (∀ s : State, ∃ t, exec .dhash s = .next t ∧ t = { s with hcode := t.hcode, err := 0 } ∧
    t.hcode.toNat = s.dig1.toNat % 2 ^ 32 ∧ (t.readReg .hcode).toNat = s.dig1.toNat % 2 ^ 32) ∧
  (∀ s t u : State, (s.dig1, s.dig2) = (t.dig1, t.dig2) → exec .dhash s = .next u →
    ∃ w, exec .dhash t = .next w ∧ w.hcode = u.hcode)

/-- 43_digest.md section 2, round trip: the text `DTOHEX` writes parses back to the latch's value, and `DPARSE` over
those 32 bytes anywhere in the memory restores it with `PARSED` = 1. -/
def Obligations.HexTextParsesBack : Prop :=
  ∀ s t : State, exec .dtohex s = .next t →
    parseText (hexBytes t.hex) = some (s.dig1, s.dig2) ∧
    ∀ u : State, u.spanInRange → u.spanBytes = hexBytes t.hex →
      exec (.dparse false) u = .next { u with dig1 := s.dig1, dig2 := s.dig2, parsed := true, err := 0 }

/-- 43_digest.md section 2, parse tolerance: any text that spells the digits of the canonical text, with whitespace
around or between them, one `0x` or `0X` right before the first, and letters in either case, parses to the same value. -/
def Obligations.ParseToleratesSpacesMarkerAndCase : Prop :=
  ∀ (d : Digest) (t : List Byte), DigestText t (nibbles d) → parseText t = some d ∧ parseText t = parseText (hexText d)

/-! ### Errors -/

/-- 60_exceptions.md R232. `InvalidArgument`: the hashing commands and `UPDATE` raise it with `N = 1` and
`SRC_LEN ≠ 0`, and take the empty message with `N = 1` and `SRC_LEN` = 0; `DPARSE` raises it with `N = 1` whatever
`SRC_LEN` is; `DTRYPARSE` never does; and no other command or form ends with it. -/
def Obligations.NullReferenceErrors : Prop :=
  ∀ s : State,
    (∀ f ∈ oneShots ++ [.update], s.srcLen ≠ 0 → exec (f true) s = .next { s with err := 1 }) ∧
    (∀ f ∈ oneShots ++ [.update], s.srcLen = 0 → messageOperand true s = .ok [] ∧
      ∃ t, exec (f true) s = .next t ∧ t.err = 0) ∧
    exec (.dparse true) s = .next { s with err := 1 } ∧
    (∀ n t, exec (.dtryparse n) s = .next t → t.err ≠ 1) ∧
    (∀ i t, exec i s = .next t → t.err = 1 →
      i = .dparse true ∨ (s.srcLen ≠ 0 ∧ ∃ f ∈ oneShots ++ [.update], i = f true))

/-- 60_exceptions.md R234. `Format` is raised only by `DPARSE`, and by it exactly when the text of a span inside the
memory does not parse. -/
def Obligations.FormatErrorOnlyFromDparse : Prop :=
  (∀ i s t, exec i s = .next t → t.err = 3 →
    i = .dparse false ∧ s.spanInRange ∧ parseText s.spanBytes = none) ∧
  (∀ s : State, s.spanInRange → parseText s.spanBytes = none → exec (.dparse false) s = .next { s with err := 3 }) ∧
  parseText (asciiBytes "nothashlike") = none ∧ parseText [] = none ∧ parseText (List.replicate 31 0x30) = none

/-- 60_exceptions.md R236. The first error that applies is reported, in the order `IllegalCommand`, `InvalidArgument`,
`OutOfRange`, `Format`: an illegal word whatever the operands, then a null reference whatever the span, then the span
whatever the text. -/
def Obligations.ErrorPriority : Prop :=
  (∀ w e (s : State), decode w = .error e → runCommand w s = .next { s with cmd := w, err := 4 }) ∧
  (∀ s : State, ∀ f ∈ oneShots ++ [.update], s.srcLen ≠ 0 → ¬ s.spanInRange →
    exec (f true) s = .next { s with err := 1 }) ∧
  (∀ s : State, ¬ s.spanInRange → exec (.dparse true) s = .next { s with err := 1 }) ∧
  (∀ s : State, ¬ s.spanInRange → parseText s.spanBytes = none → exec (.dparse false) s = .next { s with err := 2 })

/-- 60_exceptions.md section 2: re-issuing a command that raised an error, with nothing changed in between, raises the
same error and changes nothing. -/
def Obligations.ReissuedErrorRepeats : Prop :=
  ∀ i s t, exec i s = .next t → t.err ≠ 0 → exec i t = .next t

/-! ### Reset and invariants -/

/-- 70_reset_and_hazards.md R260. The reset event sets every register to 0 but `ID`, which reads its hardwired value,
and leaves every message byte; after power-on the bytes are `MSG_INIT`, for every `MSG_SIZE` and `MSG_INIT`. -/
def Obligations.ResetEventClearsEveryRegister : Prop :=
  (∀ s : State, s.nextIsReset → ∃ t, step s = .next t ∧ t.readReg .id = 0x53504F4F4B590002 ∧
    (∀ r, r ≠ .id → t.readReg r = 0) ∧ (∀ a, t.msgByte a = s.msgByte a) ∧ t.cfg = s.cfg) ∧
  (∀ c : Config, (State.resetWith c).readReg .id = 0x53504F4F4B590002 ∧
    (∀ r, r ≠ .id → (State.resetWith c).readReg r = 0) ∧
    (∀ a, (State.resetWith c).msgByte a = c.initByte a))

/-- 70_reset_and_hazards.md section 1: after reset the engine is exactly what `INIT` under seeds (0, 0) produces, so a
`FINAL` right after reset gives the digest of the empty message. -/
def Obligations.ResetEngineIsInitZero : Prop :=
  ∀ c : Config,
    (∀ s t : State, s.seed1 = 0 → s.seed2 = 0 → exec .init s = .next t → t.eng = (State.resetWith c).eng) ∧
    exec .final (State.resetWith c) = .next { State.resetWith c with
      dig1 := 0x232706FC6BF50919, dig2 := 0x8B72EE65B4E851C7 } ∧
    hash128 [] 0 0 = (0x232706FC6BF50919, 0x8B72EE65B4E851C7)

/-- 10_state.md sections 2 and 4, 42_engine.md section 1 and the model's canonical memory: the invariant holds after
power-on reset for all legal parameters. -/
def Obligations.ResetMeetsTheInvariant : Prop :=
  ∀ c : Config, c.wf → (State.resetWith c).Inv

/-- 10_state.md sections 2 and 4, 42_engine.md section 1 and the model's canonical memory: every step keeps the
invariant: the parameters legal, the memory canonical, `ERR` a code that can be produced, at most 191 bytes buffered,
`HEX0`–`HEX3` zero or upper-case digits. -/
def Obligations.EveryStepKeepsTheInvariant : Prop :=
  ∀ s t : State, s.Inv → step s = .next t → t.Inv
end

