-- ==== Sys2Proof/Laws/Engine.lean ====
section
/-! SUPPORT. The chunks and blocks of the hash functions in order, and the engine's buffer and counts: what a fill, a
slice and an update make of them. -/

namespace Sys2Proof.Machine

@[simp] theorem slice_length (m : List Byte) (p q : Nat) : (slice m p q).length = min (q - p) (m.length - p) := by
  simp [slice]

/-- A slice of the bytes from `n` on is a slice of the bytes, `n` further. -/
theorem slice_drop (m : List Byte) (n p q : Nat) : slice (m.drop n) p q = slice m (n + p) (n + q) := by
  simp only [slice, List.drop_drop]
  congr 1
  omega

theorem bufferSlice_length (buf : Vector Byte 192) (p q : Nat) :
    (bufferSlice buf p q).length = min (q - p) (192 - p) := by
  simp [bufferSlice]

/-- A filled byte is a byte of the data, any other is as before. -/
theorem fillBuffer_getElem (buf : Vector Byte 192) (off : Nat) (data : List Byte) (i : Nat) (h : i < 192) :
    (fillBuffer buf off data)[i] =
      if off ≤ i ∧ i < off + data.length then data.getD (i - off) 0 else buf[i] := by
  simp [fillBuffer]

/-- The empty message fills nothing. -/
theorem fillBuffer_nil (buf : Vector Byte 192) (off : Nat) : fillBuffer buf off [] = buf := by
  ext i h
  rw [fillBuffer_getElem, if_neg (by simp)]

/-- Chunks enter in order: `j` of them, then the next `k`. -/
theorem shortChunks_add (j k : Nat) (m : List Byte) (q : Vector Word 4) :
    shortChunks (j + k) m q = shortChunks k (m.drop (32 * j)) (shortChunks j m q) := by
  induction j generalizing m q with
  | zero => rw [Nat.zero_add, Nat.mul_zero, List.drop_zero]; rfl
  | succ j ih =>
    rw [show j + 1 + k = (j + k) + 1 by omega, shortChunks, ih, List.drop_drop, shortChunks,
      show 32 + 32 * j = 32 * (j + 1) by omega]

/-- No bytes, no blocks. -/
@[simp] theorem mixBlocks_zero (m : List Byte) (h : Vector Word 12) : mixBlocks 0 m h = h := rfl

/-- Blocks are absorbed in order: `j` of them, then the next `k`. -/
theorem mixBlocks_add (j k : Nat) (m : List Byte) (h : Vector Word 12) :
    mixBlocks (j + k) m h = mixBlocks k (m.drop (96 * j)) (mixBlocks j m h) := by
  induction j generalizing m h with
  | zero => simp
  | succ j ih =>
    rw [show j + 1 + k = (j + k) + 1 by omega, mixBlocks, ih, List.drop_drop, mixBlocks]
    congr 2
    omega

/-- A slice of the buffer from 0 is its first bytes. -/
theorem bufferSlice_zero (buf : Vector Byte 192) (q : Nat) : bufferSlice buf 0 q = buf.toList.take q := by
  simp [bufferSlice, slice]

/-- The first bytes of a buffer filled from 0 are the data. -/
theorem bufferSlice_fill_zero (buf : Vector Byte 192) (data : List Byte) (h : data.length ≤ 192) :
    bufferSlice (fillBuffer buf 0 data) 0 data.length = data := by
  apply List.ext_getElem
  · simp only [bufferSlice_length]; omega
  · intro i _ h2
    simp only [bufferSlice, slice, List.getElem_take, List.getElem_drop]
    simp [fillBuffer_getElem, h2]

/-- Filling after the first `c` bytes appends the data to them. -/
theorem bufferSlice_fill (buf : Vector Byte 192) (c : Nat) (data : List Byte) (h : c + data.length ≤ 192) :
    bufferSlice (fillBuffer buf c data) 0 (c + data.length) = bufferSlice buf 0 c ++ data := by
  apply List.ext_getElem
  · simp only [bufferSlice_length, List.length_append]; omega
  · intro i h1 _
    rw [bufferSlice_length] at h1
    simp only [bufferSlice, slice, List.getElem_take, List.getElem_append,
      Vector.getElem_toList, fillBuffer_getElem, List.drop_zero, Nat.sub_zero, List.length_take, Vector.length_toList]
    by_cases hc : c ≤ i
    · rw [if_pos ⟨hc, by omega⟩, dif_neg (by omega), List.getD_eq_getElem _ _ (by omega)]
      congr 1
      omega
    · rw [if_neg (by omega), dif_pos (by omega)]

/-- The words of a block depend on its first 96 bytes only. -/
theorem words_congr {a b : List Byte} (h : a.take 96 = b.take 96) : words a = words b := by
  have front (l : List Byte) : words l = words (l.take 96) := by
    refine congrArg Vector.ofFn (funext fun j => congrArg le64 ?_)
    have := j.isLt
    simp only [slice]
    rw [List.drop_take, List.take_take]
    congr 1
    omega
  rw [front a, front b, h]

/-- The first `k` blocks depend on the first `96 * k` bytes only. -/
theorem mixBlocks_congr (k : Nat) {a b : List Byte} (h : Vector Word 12) (e : a.take (96 * k) = b.take (96 * k)) :
    mixBlocks k a h = mixBlocks k b h := by
  induction k generalizing a b h with
  | zero => rfl
  | succ k ih =>
    have first : a.take 96 = b.take 96 := by
      have := congrArg (List.take 96) e
      rwa [List.take_take, List.take_take, show min 96 (96 * (k + 1)) = 96 by omega] at this
    have others : (a.drop 96).take (96 * k) = (b.drop 96).take (96 * k) := by
      have := congrArg (List.drop 96) e
      rwa [List.drop_take, List.drop_take, show 96 * (k + 1) - 96 = 96 * k by omega] at this
    rw [mixBlocks, mixBlocks, show slice a 0 96 = slice b 0 96 by simpa [slice] using first]
    exact ih _ others

/-- The rest kept by the absorbing paths is shorter than a block. -/
theorem Engine.absorb_ecnt_lt (e : Engine) (data : List Byte) : (e.absorb data).ecnt.toNat < 96 := by
  simp only [Engine.absorb, BitVec.toNat_ofNat, List.length_drop]
  omega

/-- After an `UPDATE` at most 191 bytes are buffered. -/
theorem Engine.update_ecnt_le (e : Engine) (data : List Byte) : (e.update data).ecnt.toNat ≤ 191 := by
  unfold Engine.update
  split
  · next h => simp only [Engine.buffer, BitVec.toNat_ofNat]; omega
  · have := e.absorb_ecnt_lt data; omega

/-- Every `UPDATE` adds the length of its bytes to `ELEN`, modulo 2^64. -/
theorem Engine.update_elen (e : Engine) (data : List Byte) : (e.update data).elen = e.lengthAfter data := by
  unfold Engine.update
  split <;> rfl

end Sys2Proof.Machine
end

