-- ==== Sys2Proof/Laws/Memory.lean ====
section
/-! SUPPORT. The message memory: a read after a write, and the canonical form kept by every operation. -/

namespace Sys2Proof.Machine

variable {c : Config} {m : Memory}

/-- Reading back the byte just written. -/
theorem Memory.read_write_same (h : m.Pairwise (fun x y => x.1 < y.1)) (a : Nat) (x : Byte) :
    Memory.read c (Memory.write c m a x) a = x := by
  induction m with
  | nil =>
    by_cases hx : x = c.initByte a
    · simp [Memory.write, Memory.read, hx]
    · simp [Memory.write, Memory.read, hx]
  | cons p rest ih =>
    obtain ⟨b, u⟩ := p
    have hrest := (List.pairwise_cons.mp h).2
    have hlt := (List.pairwise_cons.mp h).1
    have absent : ∀ l : Memory, (∀ q ∈ l, a < q.1) → Memory.read c l a = c.initByte a := by
      intro l hl
      induction l with
      | nil => rfl
      | cons q l' ihl =>
        have h1 := hl q (by simp)
        rw [Memory.read, if_neg (by omega)]
        exact ihl fun q' hq' => hl q' (by simp [hq'])
    unfold Memory.write
    split
    · next hab =>
      split
      · next hx =>
        rw [hx]
        refine absent _ fun q hq => ?_
        rcases List.mem_cons.mp hq with rfl | hq'
        · exact hab
        · exact Nat.lt_trans hab (hlt q hq')
      · simp [Memory.read]
    · split
      · next hab =>
        subst hab
        split
        · next hx => rw [hx]; exact absent _ hlt
        · simp [Memory.read]
      · next hne => rw [Memory.read, if_neg hne]; exact ih hrest

/-- A write leaves every other byte. -/
theorem Memory.read_write_other (a : Nat) (x : Byte) {b : Nat} (hb : b ≠ a) :
    Memory.read c (Memory.write c m a x) b = Memory.read c m b := by
  induction m with
  | nil =>
    unfold Memory.write
    split
    · rfl
    · simp [Memory.read, hb]
  | cons p rest ih =>
    obtain ⟨d, u⟩ := p
    unfold Memory.write
    split
    · split
      · rfl
      · simp [Memory.read, hb]
    · split
      · next hab =>
        subst hab
        split <;> simp [Memory.read, hb]
      · simp only [Memory.read, ih]

/-- The addresses a write can list: the written one and those listed before. -/
theorem Memory.mem_write {a : Nat} {x : Byte} {p : Host.Cell} (h : p ∈ Memory.write c m a x) :
    (p = (a, x) ∧ x ≠ c.initByte a) ∨ p ∈ m := by
  induction m with
  | nil =>
    unfold Memory.write at h
    split at h
    · cases h
    · next hx => exact .inl ⟨by simpa using h, hx⟩
  | cons q rest ih =>
    obtain ⟨b, u⟩ := q
    unfold Memory.write at h
    split at h
    · split at h
      · exact .inr h
      · next hx =>
        rcases List.mem_cons.mp h with rfl | h'
        · exact .inl ⟨rfl, hx⟩
        · exact .inr h'
    · split at h
      · split at h
        · exact .inr (List.mem_cons_of_mem _ h)
        · next hx =>
          rcases List.mem_cons.mp h with rfl | h'
          · exact .inl ⟨rfl, hx⟩
          · exact .inr (List.mem_cons_of_mem _ h')
      · rcases List.mem_cons.mp h with rfl | h'
        · exact .inr (by simp)
        · exact (ih h').imp_right (List.mem_cons_of_mem _)

/-- A write inside the memory keeps the canonical form. -/
theorem Memory.write_wf (h : Memory.wf c m) {a : Nat} (ha : a < c.msgSize) (x : Byte) :
    Memory.wf c (Memory.write c m a x) := by
  refine ⟨?_, fun p hp => ?_⟩
  · have hs := h.1
    clear h
    induction m with
    | nil => unfold Memory.write; split <;> simp
    | cons q rest ih =>
      obtain ⟨b, u⟩ := q
      obtain ⟨hlt, hrest⟩ := List.pairwise_cons.mp hs
      unfold Memory.write
      split
      · next hab =>
        split
        · exact hs
        · refine List.pairwise_cons.mpr ⟨fun p hp => ?_, hs⟩
          rcases List.mem_cons.mp hp with rfl | hp'
          · exact hab
          · exact Nat.lt_trans hab (hlt p hp')
      · split
        · next hab =>
          subst hab
          split
          · exact hrest
          · exact List.pairwise_cons.mpr ⟨hlt, hrest⟩
        · next hnlt hne =>
          refine List.pairwise_cons.mpr ⟨fun p hp => ?_, ih hrest⟩
          rcases Memory.mem_write hp with ⟨rfl, _⟩ | hp'
          · show b < a; omega
          · exact hlt p hp'
  · rcases Memory.mem_write hp with ⟨rfl, hx⟩ | hp'
    · exact ⟨ha, hx⟩
    · exact h.2 p hp'

/-- The empty list is canonical: the memory of `State.reset`. -/
theorem Memory.nil_wf (c : Config) : Memory.wf c [] := ⟨List.Pairwise.nil, by simp⟩

theorem State.reset_msg_wf : Memory.wf State.reset.cfg State.reset.msg := Memory.nil_wf _

/-- A host byte write keeps the canonical form. -/
theorem State.hostWriteMsg_wf {s : State} (h : Memory.wf s.cfg s.msg) (a : Nat) (x : Byte) :
    Memory.wf (s.hostWriteMsg a x).cfg (s.hostWriteMsg a x).msg := by
  unfold State.hostWriteMsg
  split
  · next ha => exact Memory.write_wf h ha x
  · exact h

/-- `MemWrite` keeps the canonical form. -/
theorem State.memWrite_wf {s : State} (h : Memory.wf s.cfg s.msg) (addr n : Nat) (x : Word) :
    Memory.wf (s.memWrite addr n x).cfg (s.memWrite addr n x).msg := by
  induction n with
  | zero => exact h
  | succ n ih => exact State.hostWriteMsg_wf ih _ _

@[simp] theorem State.msgBytes_length (s : State) (addr n : Nat) : (s.msgBytes addr n).length = n := by
  simp [State.msgBytes]

@[simp] theorem State.spanBytes_length (s : State) : s.spanBytes.length = s.srcLen.toNat := by
  simp [State.spanBytes]

/-- Byte `i` of a span is the message byte `i` places on. -/
theorem State.msgBytes_getElem (s : State) (addr : Nat) {n i : Nat} (h : i < (s.msgBytes addr n).length) :
    (s.msgBytes addr n)[i] = s.msgByte (addr + i) := by
  simp [State.msgBytes]

end Sys2Proof.Machine
end

