-- ==== Sys2Proof/Laws/State.lean ====
section
/-! SUPPORT. One lemma for each field of State and each named update: what the update makes of the field. -/

namespace Sys2Proof.Machine

variable (s : State)

@[simp] theorem State.withErr_cfg (code : BitVec 4) : (s.withErr code).cfg = s.cfg := rfl
@[simp] theorem State.withErr_cmd (code : BitVec 4) : (s.withErr code).cmd = s.cmd := rfl
@[simp] theorem State.withErr_err (code : BitVec 4) : (s.withErr code).err = code := rfl
@[simp] theorem State.withErr_eq (code : BitVec 4) : (s.withErr code).eq = s.eq := rfl
@[simp] theorem State.withErr_parsed (code : BitVec 4) : (s.withErr code).parsed = s.parsed := rfl
@[simp] theorem State.withErr_seed1 (code : BitVec 4) : (s.withErr code).seed1 = s.seed1 := rfl
@[simp] theorem State.withErr_seed2 (code : BitVec 4) : (s.withErr code).seed2 = s.seed2 := rfl
@[simp] theorem State.withErr_srcAddr (code : BitVec 4) : (s.withErr code).srcAddr = s.srcAddr := rfl
@[simp] theorem State.withErr_srcLen (code : BitVec 4) : (s.withErr code).srcLen = s.srcLen := rfl
@[simp] theorem State.withErr_dig1 (code : BitVec 4) : (s.withErr code).dig1 = s.dig1 := rfl
@[simp] theorem State.withErr_dig2 (code : BitVec 4) : (s.withErr code).dig2 = s.dig2 := rfl
@[simp] theorem State.withErr_cmp1 (code : BitVec 4) : (s.withErr code).cmp1 = s.cmp1 := rfl
@[simp] theorem State.withErr_cmp2 (code : BitVec 4) : (s.withErr code).cmp2 = s.cmp2 := rfl
@[simp] theorem State.withErr_hcode (code : BitVec 4) : (s.withErr code).hcode = s.hcode := rfl
@[simp] theorem State.withErr_hex (code : BitVec 4) : (s.withErr code).hex = s.hex := rfl
@[simp] theorem State.withErr_v (code : BitVec 4) : (s.withErr code).v = s.v := rfl
@[simp] theorem State.withErr_w (code : BitVec 4) : (s.withErr code).w = s.w := rfl
@[simp] theorem State.withErr_eng (code : BitVec 4) : (s.withErr code).eng = s.eng := rfl
@[simp] theorem State.withErr_msg (code : BitVec 4) : (s.withErr code).msg = s.msg := rfl
@[simp] theorem State.withErr_pending (code : BitVec 4) : (s.withErr code).pending = s.pending := rfl
@[simp] theorem State.withErr_readData (code : BitVec 4) : (s.withErr code).readData = s.readData := rfl

@[simp] theorem State.withDigest_cfg (d : Digest) : (s.withDigest d).cfg = s.cfg := rfl
@[simp] theorem State.withDigest_cmd (d : Digest) : (s.withDigest d).cmd = s.cmd := rfl
@[simp] theorem State.withDigest_err (d : Digest) : (s.withDigest d).err = s.err := rfl
@[simp] theorem State.withDigest_eq (d : Digest) : (s.withDigest d).eq = s.eq := rfl
@[simp] theorem State.withDigest_parsed (d : Digest) : (s.withDigest d).parsed = s.parsed := rfl
@[simp] theorem State.withDigest_seed1 (d : Digest) : (s.withDigest d).seed1 = s.seed1 := rfl
@[simp] theorem State.withDigest_seed2 (d : Digest) : (s.withDigest d).seed2 = s.seed2 := rfl
@[simp] theorem State.withDigest_srcAddr (d : Digest) : (s.withDigest d).srcAddr = s.srcAddr := rfl
@[simp] theorem State.withDigest_srcLen (d : Digest) : (s.withDigest d).srcLen = s.srcLen := rfl
@[simp] theorem State.withDigest_dig1 (d : Digest) : (s.withDigest d).dig1 = d.1 := rfl
@[simp] theorem State.withDigest_dig2 (d : Digest) : (s.withDigest d).dig2 = d.2 := rfl
@[simp] theorem State.withDigest_cmp1 (d : Digest) : (s.withDigest d).cmp1 = s.cmp1 := rfl
@[simp] theorem State.withDigest_cmp2 (d : Digest) : (s.withDigest d).cmp2 = s.cmp2 := rfl
@[simp] theorem State.withDigest_hcode (d : Digest) : (s.withDigest d).hcode = s.hcode := rfl
@[simp] theorem State.withDigest_hex (d : Digest) : (s.withDigest d).hex = s.hex := rfl
@[simp] theorem State.withDigest_v (d : Digest) : (s.withDigest d).v = s.v := rfl
@[simp] theorem State.withDigest_w (d : Digest) : (s.withDigest d).w = s.w := rfl
@[simp] theorem State.withDigest_eng (d : Digest) : (s.withDigest d).eng = s.eng := rfl
@[simp] theorem State.withDigest_msg (d : Digest) : (s.withDigest d).msg = s.msg := rfl
@[simp] theorem State.withDigest_pending (d : Digest) : (s.withDigest d).pending = s.pending := rfl
@[simp] theorem State.withDigest_readData (d : Digest) : (s.withDigest d).readData = s.readData := rfl

@[simp] theorem State.withV_cfg (x : Vector Word 12) : (s.withV x).cfg = s.cfg := rfl
@[simp] theorem State.withV_cmd (x : Vector Word 12) : (s.withV x).cmd = s.cmd := rfl
@[simp] theorem State.withV_err (x : Vector Word 12) : (s.withV x).err = s.err := rfl
@[simp] theorem State.withV_eq (x : Vector Word 12) : (s.withV x).eq = s.eq := rfl
@[simp] theorem State.withV_parsed (x : Vector Word 12) : (s.withV x).parsed = s.parsed := rfl
@[simp] theorem State.withV_seed1 (x : Vector Word 12) : (s.withV x).seed1 = s.seed1 := rfl
@[simp] theorem State.withV_seed2 (x : Vector Word 12) : (s.withV x).seed2 = s.seed2 := rfl
@[simp] theorem State.withV_srcAddr (x : Vector Word 12) : (s.withV x).srcAddr = s.srcAddr := rfl
@[simp] theorem State.withV_srcLen (x : Vector Word 12) : (s.withV x).srcLen = s.srcLen := rfl
@[simp] theorem State.withV_dig1 (x : Vector Word 12) : (s.withV x).dig1 = s.dig1 := rfl
@[simp] theorem State.withV_dig2 (x : Vector Word 12) : (s.withV x).dig2 = s.dig2 := rfl
@[simp] theorem State.withV_cmp1 (x : Vector Word 12) : (s.withV x).cmp1 = s.cmp1 := rfl
@[simp] theorem State.withV_cmp2 (x : Vector Word 12) : (s.withV x).cmp2 = s.cmp2 := rfl
@[simp] theorem State.withV_hcode (x : Vector Word 12) : (s.withV x).hcode = s.hcode := rfl
@[simp] theorem State.withV_hex (x : Vector Word 12) : (s.withV x).hex = s.hex := rfl
@[simp] theorem State.withV_v (x : Vector Word 12) : (s.withV x).v = x := rfl
@[simp] theorem State.withV_w (x : Vector Word 12) : (s.withV x).w = s.w := rfl
@[simp] theorem State.withV_eng (x : Vector Word 12) : (s.withV x).eng = s.eng := rfl
@[simp] theorem State.withV_msg (x : Vector Word 12) : (s.withV x).msg = s.msg := rfl
@[simp] theorem State.withV_pending (x : Vector Word 12) : (s.withV x).pending = s.pending := rfl
@[simp] theorem State.withV_readData (x : Vector Word 12) : (s.withV x).readData = s.readData := rfl

@[simp] theorem State.withEngine_cfg (e : Engine) : (s.withEngine e).cfg = s.cfg := rfl
@[simp] theorem State.withEngine_cmd (e : Engine) : (s.withEngine e).cmd = s.cmd := rfl
@[simp] theorem State.withEngine_err (e : Engine) : (s.withEngine e).err = s.err := rfl
@[simp] theorem State.withEngine_eq (e : Engine) : (s.withEngine e).eq = s.eq := rfl
@[simp] theorem State.withEngine_parsed (e : Engine) : (s.withEngine e).parsed = s.parsed := rfl
@[simp] theorem State.withEngine_seed1 (e : Engine) : (s.withEngine e).seed1 = s.seed1 := rfl
@[simp] theorem State.withEngine_seed2 (e : Engine) : (s.withEngine e).seed2 = s.seed2 := rfl
@[simp] theorem State.withEngine_srcAddr (e : Engine) : (s.withEngine e).srcAddr = s.srcAddr := rfl
@[simp] theorem State.withEngine_srcLen (e : Engine) : (s.withEngine e).srcLen = s.srcLen := rfl
@[simp] theorem State.withEngine_dig1 (e : Engine) : (s.withEngine e).dig1 = s.dig1 := rfl
@[simp] theorem State.withEngine_dig2 (e : Engine) : (s.withEngine e).dig2 = s.dig2 := rfl
@[simp] theorem State.withEngine_cmp1 (e : Engine) : (s.withEngine e).cmp1 = s.cmp1 := rfl
@[simp] theorem State.withEngine_cmp2 (e : Engine) : (s.withEngine e).cmp2 = s.cmp2 := rfl
@[simp] theorem State.withEngine_hcode (e : Engine) : (s.withEngine e).hcode = s.hcode := rfl
@[simp] theorem State.withEngine_hex (e : Engine) : (s.withEngine e).hex = s.hex := rfl
@[simp] theorem State.withEngine_v (e : Engine) : (s.withEngine e).v = s.v := rfl
@[simp] theorem State.withEngine_w (e : Engine) : (s.withEngine e).w = s.w := rfl
@[simp] theorem State.withEngine_eng (e : Engine) : (s.withEngine e).eng = e := rfl
@[simp] theorem State.withEngine_msg (e : Engine) : (s.withEngine e).msg = s.msg := rfl
@[simp] theorem State.withEngine_pending (e : Engine) : (s.withEngine e).pending = s.pending := rfl
@[simp] theorem State.withEngine_readData (e : Engine) : (s.withEngine e).readData = s.readData := rfl

@[simp] theorem State.withParse_cfg (d : Digest) : (s.withParse d).cfg = s.cfg := rfl
@[simp] theorem State.withParse_cmd (d : Digest) : (s.withParse d).cmd = s.cmd := rfl
@[simp] theorem State.withParse_err (d : Digest) : (s.withParse d).err = s.err := rfl
@[simp] theorem State.withParse_eq (d : Digest) : (s.withParse d).eq = s.eq := rfl
@[simp] theorem State.withParse_parsed (d : Digest) : (s.withParse d).parsed = true := rfl
@[simp] theorem State.withParse_seed1 (d : Digest) : (s.withParse d).seed1 = s.seed1 := rfl
@[simp] theorem State.withParse_seed2 (d : Digest) : (s.withParse d).seed2 = s.seed2 := rfl
@[simp] theorem State.withParse_srcAddr (d : Digest) : (s.withParse d).srcAddr = s.srcAddr := rfl
@[simp] theorem State.withParse_srcLen (d : Digest) : (s.withParse d).srcLen = s.srcLen := rfl
@[simp] theorem State.withParse_dig1 (d : Digest) : (s.withParse d).dig1 = d.1 := rfl
@[simp] theorem State.withParse_dig2 (d : Digest) : (s.withParse d).dig2 = d.2 := rfl
@[simp] theorem State.withParse_cmp1 (d : Digest) : (s.withParse d).cmp1 = s.cmp1 := rfl
@[simp] theorem State.withParse_cmp2 (d : Digest) : (s.withParse d).cmp2 = s.cmp2 := rfl
@[simp] theorem State.withParse_hcode (d : Digest) : (s.withParse d).hcode = s.hcode := rfl
@[simp] theorem State.withParse_hex (d : Digest) : (s.withParse d).hex = s.hex := rfl
@[simp] theorem State.withParse_v (d : Digest) : (s.withParse d).v = s.v := rfl
@[simp] theorem State.withParse_w (d : Digest) : (s.withParse d).w = s.w := rfl
@[simp] theorem State.withParse_eng (d : Digest) : (s.withParse d).eng = s.eng := rfl
@[simp] theorem State.withParse_msg (d : Digest) : (s.withParse d).msg = s.msg := rfl
@[simp] theorem State.withParse_pending (d : Digest) : (s.withParse d).pending = s.pending := rfl
@[simp] theorem State.withParse_readData (d : Digest) : (s.withParse d).readData = s.readData := rfl

@[simp] theorem State.withParseFailure_cfg : (s.withParseFailure).cfg = s.cfg := rfl
@[simp] theorem State.withParseFailure_cmd : (s.withParseFailure).cmd = s.cmd := rfl
@[simp] theorem State.withParseFailure_err : (s.withParseFailure).err = s.err := rfl
@[simp] theorem State.withParseFailure_eq : (s.withParseFailure).eq = s.eq := rfl
@[simp] theorem State.withParseFailure_parsed : (s.withParseFailure).parsed = false := rfl
@[simp] theorem State.withParseFailure_seed1 : (s.withParseFailure).seed1 = s.seed1 := rfl
@[simp] theorem State.withParseFailure_seed2 : (s.withParseFailure).seed2 = s.seed2 := rfl
@[simp] theorem State.withParseFailure_srcAddr : (s.withParseFailure).srcAddr = s.srcAddr := rfl
@[simp] theorem State.withParseFailure_srcLen : (s.withParseFailure).srcLen = s.srcLen := rfl
@[simp] theorem State.withParseFailure_dig1 : (s.withParseFailure).dig1 = 0 := rfl
@[simp] theorem State.withParseFailure_dig2 : (s.withParseFailure).dig2 = 0 := rfl
@[simp] theorem State.withParseFailure_cmp1 : (s.withParseFailure).cmp1 = s.cmp1 := rfl
@[simp] theorem State.withParseFailure_cmp2 : (s.withParseFailure).cmp2 = s.cmp2 := rfl
@[simp] theorem State.withParseFailure_hcode : (s.withParseFailure).hcode = s.hcode := rfl
@[simp] theorem State.withParseFailure_hex : (s.withParseFailure).hex = s.hex := rfl
@[simp] theorem State.withParseFailure_v : (s.withParseFailure).v = s.v := rfl
@[simp] theorem State.withParseFailure_w : (s.withParseFailure).w = s.w := rfl
@[simp] theorem State.withParseFailure_eng : (s.withParseFailure).eng = s.eng := rfl
@[simp] theorem State.withParseFailure_msg : (s.withParseFailure).msg = s.msg := rfl
@[simp] theorem State.withParseFailure_pending : (s.withParseFailure).pending = s.pending := rfl
@[simp] theorem State.withParseFailure_readData : (s.withParseFailure).readData = s.readData := rfl

/-- Two writes of `ERR` are the last one. -/
@[simp] theorem State.withErr_withErr (a b : BitVec 4) : (s.withErr a).withErr b = s.withErr b := rfl

end Sys2Proof.Machine
end

