-- ==== Sys2Proof/Laws/Ops.lean ====
section
/-! SUPPORT. What each shared operation can do, once: completing, raising, running on an operand, the operands, the
indexed write; and what the commands that are no plain completion can do. -/

namespace Sys2Proof.Machine

variable {s t : State}

/-! ### Completing and raising -/

@[simp] theorem complete_eq_next : complete s = .next t ↔ s.withErr 0 = t := by
  simp [complete]

@[simp] theorem raiseError_eq_next {e : CmdError} : raiseError e s = .next t ↔ s.withErr e.code = t := by
  simp [raiseError]

/-- An error code is never 0 (`NONE`). -/
@[simp] theorem code_ne_zero (e : CmdError) : e.code ≠ 0#4 := by
  cases e <;> decide

/-- An error code is at most 4. -/
theorem code_le_four (e : CmdError) : e.code.toNat ≤ 4 := by
  cases e <;> decide

/-- Different errors have different codes. -/
theorem code_injective {e f : CmdError} (h : e.code = f.code) : e = f := by
  revert h; cases e <;> cases f <;> decide

/-! ### The memory operand -/

theorem spanOperand_of_inRange (h : s.spanInRange) : spanOperand s = .ok s.spanBytes := if_pos h

theorem spanOperand_of_not_inRange (h : ¬ s.spanInRange) : spanOperand s = .error .outOfRange := if_neg h

@[simp] theorem messageOperand_false : messageOperand false s = spanOperand s := rfl

theorem messageOperand_true_zero (h : s.srcLen.toNat = 0) : messageOperand true s = .ok [] := by
  simp [messageOperand, h]

theorem messageOperand_true_ne (h : s.srcLen.toNat ≠ 0) : messageOperand true s = .error .invalidArgument := by
  simp [messageOperand, h]

@[simp] theorem textOperand_false : textOperand false s = spanOperand s := rfl

@[simp] theorem textOperand_true : textOperand true s = .error .invalidArgument := rfl

/-- The span operand is the bytes of the span, inside the memory, and nothing else. -/
theorem spanOperand_ok {m : List Byte} (h : spanOperand s = .ok m) : s.spanInRange ∧ m = s.spanBytes := by
  unfold spanOperand at h
  split at h
  · next hr => exact ⟨hr, by simpa using h.symm⟩
  · cases h

/-- The message operand is the empty message of a null reference or the bytes of a span inside the memory. -/
theorem messageOperand_ok {n : Bool} {m : List Byte} (h : messageOperand n s = .ok m) :
    (n = true ∧ s.srcLen.toNat = 0 ∧ m = []) ∨ (n = false ∧ s.spanInRange ∧ m = s.spanBytes) := by
  cases n with
  | false => exact .inr ⟨rfl, spanOperand_ok h⟩
  | true =>
    by_cases h0 : s.srcLen.toNat = 0
    · rw [messageOperand_true_zero h0] at h
      exact .inl ⟨rfl, h0, by simpa using h.symm⟩
    · rw [messageOperand_true_ne h0] at h
      cases h

/-- A command on an operand completes in the state it makes of the operand, or raises the operand's error. -/
theorem onOperand_next {operand : Except CmdError (List Byte)} {f : List Byte → State}
    (h : onOperand operand s f = .next t) :
    (∃ m, operand = .ok m ∧ t = (f m).withErr 0) ∨ (∃ e, operand = .error e ∧ t = s.withErr e.code) := by
  cases operand with
  | ok m => exact .inl ⟨m, rfl, (complete_eq_next.mp h).symm⟩
  | error e => exact .inr ⟨e, rfl, (raiseError_eq_next.mp h).symm⟩

/-- A command on an operand always answers a next state. -/
theorem onOperand_answers (operand : Except CmdError (List Byte)) (s : State) (f : List Byte → State) :
    ∃ t, onOperand operand s f = .next t := by
  cases operand <;> exact ⟨_, rfl⟩

/-! ### The commands that are no plain completion -/

/-- `ROTL` writes one working register, or raises `IllegalCommand`. -/
theorem execRotl_next {reg : BitVec 4} {sh : BitVec 6} (h : execRotl reg sh s = .next t) :
    (∃ hr : reg.toNat < 12,
      t = (s.withV (setAt s.v ⟨reg.toNat, hr⟩ (rotl64 s.v[reg.toNat] sh.toNat))).withErr 0) ∨
    t = s.withErr CmdError.illegalCommand.code := by
  unfold execRotl at h
  split at h
  · next hr => exact .inl ⟨hr, (complete_eq_next.mp h).symm⟩
  · exact .inr (raiseError_eq_next.mp h).symm

/-- `DPARSE` loads the parsed value, or raises an error. -/
theorem execDparse_next {n : Bool} (h : execDparse n s = .next t) :
    (∃ x d, textOperand n s = .ok x ∧ parseText x = some d ∧ t = (s.withParse d).withErr 0) ∨
    (∃ x, textOperand n s = .ok x ∧ parseText x = none ∧ t = s.withErr CmdError.format.code) ∨
    (∃ e, textOperand n s = .error e ∧ t = s.withErr e.code) := by
  unfold execDparse at h
  split at h
  · next e he => exact .inr (.inr ⟨e, he, (raiseError_eq_next.mp h).symm⟩)
  · next x hx =>
    split at h
    · next hp => exact .inr (.inl ⟨x, hx, hp, (raiseError_eq_next.mp h).symm⟩)
    · next d hp => exact .inl ⟨x, d, hx, hp, (complete_eq_next.mp h).symm⟩

/-- `DTRYPARSE` completes with the result of a parse, or raises `OutOfRange`. -/
theorem execDtryparse_next {n : Bool} (h : execDtryparse n s = .next t) :
    (∃ r, t = (tryParseState s r).withErr 0 ∧
      ((n = true ∧ r = none) ∨ (n = false ∧ s.spanInRange ∧ r = parseText s.spanBytes))) ∨
    (n = false ∧ ¬ s.spanInRange ∧ t = s.withErr CmdError.outOfRange.code) := by
  cases n with
  | true => exact .inl ⟨none, (complete_eq_next.mp h).symm, .inl ⟨rfl, rfl⟩⟩
  | false =>
    by_cases hr : s.spanInRange
    · simp only [execDtryparse, spanOperand_of_inRange hr, onOperand, Bool.false_eq_true, if_false,
        complete_eq_next] at h
      exact .inl ⟨_, h.symm, .inr ⟨rfl, hr, rfl⟩⟩
    · simp only [execDtryparse, spanOperand_of_not_inRange hr, onOperand, Bool.false_eq_true, if_false,
        raiseError_eq_next] at h
      exact .inr ⟨rfl, hr, h.symm⟩

/-! ### Indexed writes -/

theorem setAt_same {n : Nat} (f : Vector Word n) (i : Fin n) (x : Word) : (setAt f i x)[i] = x := by
  simp [setAt]

theorem setAt_other {n : Nat} (f : Vector Word n) {i j : Fin n} (x : Word) (h : j ≠ i) :
    (setAt f i x)[j] = f[j] := by
  have : i.val ≠ j.val := fun e => h (Fin.ext e.symm)
  simp [setAt, this]

end Sys2Proof.Machine
end

