-- ==== Sys2Proof/Laws/PerInstr.lean ====
section
/-! SUPPORT. One lemma for each constructor of Instr: the encoding of a command carries its opcode (30_encoding.md R88,
R90) and no bit outside the bits the format uses (R81). -/

namespace Sys2Proof.Laws.EncodedOpcode

/-- The word of a command has the command's opcode in `OP` and 0 in every reserved bit of the format. -/
def Statement (i : Instr) : Prop := opField (encode i) = opcodeOf i ∧ encode i &&& 0xFFFFFFFFC0F0FE00 = 0

theorem nop : Statement .nop := by unfold Statement; decide
theorem rotl (reg : BitVec 4) (sh : BitVec 6) : Statement (.rotl reg sh) := by
  unfold Statement; revert reg sh; decide +kernel
theorem shortMix : Statement .shortMix := by unfold Statement; decide
theorem shortEnd : Statement .shortEnd := by unfold Statement; decide
theorem mix : Statement .mix := by unfold Statement; decide
theorem endPartial : Statement .endPartial := by unfold Statement; decide
theorem endMix : Statement .endMix := by unfold Statement; decide
theorem short (n : Bool) : Statement (.short n) := by unfold Statement; cases n <;> decide
theorem long (n : Bool) : Statement (.long n) := by unfold Statement; cases n <;> decide
theorem hash128 (n : Bool) : Statement (.hash128 n) := by unfold Statement; cases n <;> decide
theorem hash64 (n : Bool) : Statement (.hash64 n) := by unfold Statement; cases n <;> decide
theorem hash32 (n : Bool) : Statement (.hash32 n) := by unfold Statement; cases n <;> decide
theorem init : Statement .init := by unfold Statement; decide
theorem update (n : Bool) : Statement (.update n) := by unfold Statement; cases n <;> decide
theorem final : Statement .final := by unfold Statement; decide
theorem dzero : Statement .dzero := by unfold Statement; decide
theorem dtohex : Statement .dtohex := by unfold Statement; decide
theorem dparse (n : Bool) : Statement (.dparse n) := by unfold Statement; cases n <;> decide
theorem dtryparse (n : Bool) : Statement (.dtryparse n) := by unfold Statement; cases n <;> decide
theorem deq : Statement .deq := by unfold Statement; decide
theorem dhash : Statement .dhash := by unfold Statement; decide

end Sys2Proof.Laws.EncodedOpcode
end

