-- ==== Sys2Proof/Laws/Step.lean ====
section
/-! SUPPORT. What one step can do: the host action it takes and, for a `CMD` write, the command it runs. -/

namespace Sys2Proof.Machine

variable {s t : State} {a : HostAction} {rest : List HostAction}

/-- With no action to come the block waits. -/
theorem step_idle (h : s.pending = []) : step s = .next s := by
  simp [step, portStep, h]

/-- The step takes the first action and leaves the others. -/
theorem step_action (h : s.pending = a :: rest) : step s = act a { s with pending := rest } := by
  simp [step, portStep, h]

@[simp] theorem act_cmd (w : Word) (s : State) : act (.writeReg 0x01 w) s = runCommand w s := rfl

theorem act_writeReg {n : BitVec 8} (h : n ≠ 0x01) (x : Word) (s : State) :
    act (.writeReg n x) s = .next (s.hostWriteReg n x) := if_neg h

theorem runCommand_ok {w : Word} {i : Instr} (h : decode w = .ok i) (s : State) :
    runCommand w s = exec i { s with cmd := w } := by
  simp [runCommand, h]

theorem runCommand_error {w : Word} {e : DecodeError} (h : decode w = .error e) (s : State) :
    runCommand w s = .next { s with cmd := w, err := 4 } := by
  simp [runCommand, h, raiseError, State.withErr, CmdError.code]

/-- The host's probe runs exactly the placed command. -/
theorem step_withFetchWord {nbits w : Nat} {i : Instr} (h : decode (tableWord nbits w) = .ok i) (s : State) :
    step (s.withFetchWord nbits w) = exec i { s with cmd := tableWord nbits w } := by
  rw [step_action (a := .writeReg 0x01 (tableWord nbits w)) (rest := s.pending) rfl, act_cmd, runCommand_ok h]
  rfl

/-- Everything a step can do when it answers a next state. -/
theorem step_cases (h : step s = .next t) :
    (s.pending = [] ∧ t = s) ∨
    (∃ w i rest, s.pending = .writeReg 0x01 w :: rest ∧ decode w = .ok i ∧
      exec i { s with pending := rest, cmd := w } = .next t) ∨
    (∃ w e rest, s.pending = .writeReg 0x01 w :: rest ∧ decode w = .error e ∧
      t = { s with pending := rest, cmd := w, err := 4 }) ∨
    (∃ n x rest, s.pending = .writeReg n x :: rest ∧ n ≠ 0x01 ∧
      t = { s with pending := rest }.hostWriteReg n x) ∨
    (∃ n rest, s.pending = .readReg n :: rest ∧
      t = { s with pending := rest, readData := s.hostReadReg n }) ∨
    (∃ addr x rest, s.pending = .writeMsg addr x :: rest ∧ t = { s with pending := rest }.hostWriteMsg addr x) ∨
    (∃ addr rest, s.pending = .readMsg addr :: rest ∧
      t = { s with pending := rest, readData := (s.hostReadMsg addr).setWidth 64 }) ∨
    (∃ rest, s.pending = .reset :: rest ∧ t = { s with pending := rest }.hostReset) := by
  match hp : s.pending with
  | [] =>
    rw [step_idle hp] at h
    exact .inl ⟨rfl, by simpa using h.symm⟩
  | .writeReg n x :: rest =>
    rw [step_action hp] at h
    by_cases hn : n = 0x01
    · subst hn
      rw [act_cmd] at h
      match hd : decode x with
      | .ok i =>
        rw [runCommand_ok hd] at h
        exact .inr (.inl ⟨x, i, rest, rfl, hd, h⟩)
      | .error e =>
        rw [runCommand_error hd] at h
        exact .inr (.inr (.inl ⟨x, e, rest, rfl, hd, by simpa using h.symm⟩))
    · rw [act_writeReg hn] at h
      exact .inr (.inr (.inr (.inl ⟨n, x, rest, rfl, hn, by simpa using h.symm⟩)))
  | .readReg n :: rest =>
    rw [step_action hp] at h
    exact .inr (.inr (.inr (.inr (.inl ⟨n, rest, rfl, (Host.Outcome.next.inj h).symm⟩))))
  | .writeMsg addr x :: rest =>
    rw [step_action hp] at h
    exact .inr (.inr (.inr (.inr (.inr (.inl ⟨addr, x, rest, rfl, (Host.Outcome.next.inj h).symm⟩)))))
  | .readMsg addr :: rest =>
    rw [step_action hp] at h
    exact .inr (.inr (.inr (.inr (.inr (.inr (.inl ⟨addr, rest, rfl, (Host.Outcome.next.inj h).symm⟩))))))
  | .reset :: rest =>
    rw [step_action hp] at h
    exact .inr (.inr (.inr (.inr (.inr (.inr (.inr ⟨rest, rfl, (Host.Outcome.next.inj h).symm⟩))))))

/-- A host register write keeps the parameters, the message memory, the engine, the `STATUS` fields and the port. -/
theorem hostWriteReg_frame (s : State) (n : BitVec 8) (x : Word) :
    let u := s.hostWriteReg n x
    u.cfg = s.cfg ∧ u.msg = s.msg ∧ u.eng = s.eng ∧ u.err = s.err ∧ u.eq = s.eq ∧ u.parsed = s.parsed ∧
      u.hex = s.hex ∧ u.hcode = s.hcode ∧ u.pending = s.pending ∧ u.readData = s.readData := by
  unfold State.hostWriteReg
  split
  · next r _ => cases r <;> simp [State.writeReg]
  · simp

end Sys2Proof.Machine
end

