-- ==== Sys2Proof/Tests/Slice0.lean ====
section
/-! SUPPORT. The model's own tests. Part 1: the well-formedness check and the decoder on words written out from the
spec's encoding. Part 2: one step of each command, expected values from 95_test_vectors.md. Part 3: for every statement
that has hypotheses, a state and operands that meet them, at the boundary of each clause. -/

namespace Sys2Proof.Tests

open Sys2Proof Sys2Proof.Machine

set_option Elab.async false

/-! ### Helpers -/

/-- The state a command answers (the machine's reset state where it answers none). -/
def after (r : Result) : State :=
  match r with
  | .next s => s
  | _ => State.reset

/-- The test pattern `P[:n]` of 95_test_vectors.md. -/
def pattern (n : Nat) : List Byte := (List.range n).map fun i => BitVec.ofNat 8 (i + 128)

/-- The bytes at the start of a memory of `size` bytes, `SRC_ADDR` = 0 and `SRC_LEN` their number. -/
def holding (size : Nat) (bytes : List Byte) : State :=
  { State.resetWith { msgSize := size, msgInit := bytes } with srcLen := BitVec.ofNat 64 bytes.length }

/-- A memory of `size` zero bytes and the span registers. -/
def spanning (size : Nat) (addr len : Word) : State :=
  { State.resetWith { msgSize := size, msgInit := [] } with srcAddr := addr, srcLen := len }

/-- Reset with host actions to come. -/
def given (actions : List HostAction) : State :=
  { State.resetWith { msgSize := 8, msgInit := [0x61, 0x62, 0x63] } with pending := actions }

/-- A text of `n` digits 0. -/
def zerosText (n : Nat) : List Byte := List.replicate n 0x30

/-- The start state of 95_test_vectors.md sections 3.5 and 5.2: digits in the latch. -/
def latched (s : State) : State := { s with dig1 := 0x1111111111111111, dig2 := 0x2222222222222222 }

/-- `V0`–`V11` counting from 1, `W0`–`W11` counting from 0. -/
def counting : State :=
  { State.reset with v := #v[1, 2, 3, 4, 5, 6, 7, 8, 9, 10, 11, 12], w := #v[0, 1, 2, 3, 4, 5, 6, 7, 8, 9, 10, 11] }

/-! ### Part 1: well-formedness and decoding -/

/-- 30_encoding.md R84: `REG` 12..15 is refused, 11 is the last legal value. -/
theorem test_wellFormed_refuses_reg : (∀ sh, ¬ WellFormed (.rotl 12 sh)) ∧ (∀ sh, ¬ WellFormed (.rotl 13 sh)) ∧
    (∀ sh, ¬ WellFormed (.rotl 14 sh)) ∧ (∀ sh, ¬ WellFormed (.rotl 15 sh)) ∧ WellFormed (.rotl 11 63) := by decide

/-- The words of 30_encoding.md sections 3 and 4, and 95_test_vectors.md section 6. -/
theorem test_decode_control_and_mixer :
    decode 0x0000000000000000 = .ok .nop ∧ decode 0x000000000B000010 = .ok (.rotl 0 11) ∧
    decode 0x00000000350B0010 = .ok (.rotl 11 53) ∧ decode 0x000000003F020010 = .ok (.rotl 2 63) ∧
    decode 0x0000000000000011 = .ok .shortMix ∧ decode 0x0000000000000012 = .ok .shortEnd ∧
    decode 0x0000000000000013 = .ok .mix ∧ decode 0x0000000000000014 = .ok .endPartial ∧
    decode 0x0000000000000015 = .ok .endMix := by decide +kernel

theorem test_decode_one_shot :
    decode 0x0000000000000018 = .ok (.short false) ∧ decode 0x0000000000000118 = .ok (.short true) ∧
    decode 0x0000000000000019 = .ok (.long false) ∧ decode 0x0000000000000119 = .ok (.long true) ∧
    decode 0x000000000000001A = .ok (.hash128 false) ∧ decode 0x000000000000011A = .ok (.hash128 true) ∧
    decode 0x000000000000001B = .ok (.hash64 false) ∧ decode 0x000000000000011B = .ok (.hash64 true) ∧
    decode 0x000000000000001C = .ok (.hash32 false) ∧ decode 0x000000000000011C = .ok (.hash32 true) := by
  decide +kernel

theorem test_decode_engine_and_digest :
    decode 0x0000000000000020 = .ok .init ∧ decode 0x0000000000000021 = .ok (.update false) ∧
    decode 0x0000000000000121 = .ok (.update true) ∧ decode 0x0000000000000022 = .ok .final ∧
    decode 0x0000000000000030 = .ok .dzero ∧ decode 0x0000000000000031 = .ok .dtohex ∧
    decode 0x0000000000000032 = .ok (.dparse false) ∧ decode 0x0000000000000132 = .ok (.dparse true) ∧
    decode 0x0000000000000033 = .ok (.dtryparse false) ∧ decode 0x0000000000000133 = .ok (.dtryparse true) ∧
    decode 0x0000000000000034 = .ok .deq ∧ decode 0x0000000000000035 = .ok .dhash := by decide +kernel

/-- Illegal words of 95_test_vectors.md section 6: each with its reason. -/
theorem test_decode_rejects :
    decode 0x0000000000000100 = .error .reservedBits ∧ decode 0x0000000000000016 = .error .reservedOpcode ∧
    decode 0x0000000000000036 = .error .reservedOpcode ∧ decode 0x000000000B0C0010 = .error .badRegister ∧
    decode 0x0000000040000010 = .error .reservedBits ∧ decode 0x0000000000000232 = .error .reservedBits ∧
    decode 0x8000000000000034 = .error .reservedBits ∧ decode 0x0000000000000110 = .error .reservedBits := by
  decide +kernel

/-- The host's probe on a row of 64 bits, and its step on the reset state. -/
theorem test_probe_update : decodeTableWord 64 0x121 = some (.update true) ∧
    (after (step (State.reset.withFetchWord 64 0x21))).cmd = 0x21 ∧
    (after (step (State.reset.withFetchWord 64 0x2))).err = 4 := by decide +kernel

/-! ### Part 2: one step of each command -/

/-- 44_control.md R220: an old error is cleared. -/
theorem test_nop : after (exec .nop { counting with err := 4 }) = counting := rfl

/-- 95_test_vectors.md section 2.1. -/
theorem test_rotl : (after (exec (.rotl 11 53) { State.reset with v := setAt State.reset.v 11 0x0123456789ABCDEF })).v[11] =
    0xBDE02468ACF13579 := by decide +kernel

theorem test_rotl_wraps : (after (exec (.rotl 1 1) { State.reset with v := setAt State.reset.v 1 0x8000000000000001 })).v =
    #v[0, 3, 0, 0, 0, 0, 0, 0, 0, 0, 0, 0] := by decide +kernel

/-- 95_test_vectors.md section 2.2. -/
theorem test_shortMix : (after (exec .shortMix counting)).v =
    #v[0x2BF7518BD9F16648, 0x9A082A6452E0D6F5, 0x8811513FD3EDB160, 0x03826F115D34E2BD, 5, 6, 7, 8, 9, 10, 11, 12] := by
  decide +kernel

theorem test_shortEnd : (after (exec .shortEnd counting)).v =
    #v[0xD05BC6CE4C6B2EFE, 0x8616FFE259AF1463, 0xCC8D19644D5EFEDD, 0x6491D728A1B49620, 5, 6, 7, 8, 9, 10, 11, 12] := by
  decide +kernel

/-- 95_test_vectors.md section 2.3. -/
theorem test_mix : (after (exec .mix { counting with v := seedState 0 0 })).v =
    #v[0x1DA5AAE97283E931, 0x3E2275B10787AC65, 0x9207EF0A92087EF7, 0x95F224C815F22492, 0xB0316D74B027FD46,
       0x1A2AA803EA293760, 0x006A2D9C848FE579, 0x77E1DFD6E8CADF58, 0xC3081406AC2E57C1, 0x8379086FBADCD185,
       0xEC12EDA9C92B647A, 0xD870AA53184E4D99] := by decide +kernel

/-- 95_test_vectors.md section 2.4. -/
theorem test_endPartial : (after (exec .endPartial counting)).v =
    #v[0x65A08AB74275CE8A, 0x8E6B02C228ADA771, 0x000020000006800F, 0x0000202800068009, 0x0000202801E68012,
       0x01A0226801EE801A, 0x01AD228401EEC063, 0x022DC28B9BEF2869, 0x067AC2C96BF18896, 0x822ADD09D73A2998,
       0x8E6B22C228ADA77B, 0xC6226019EB0B25AF] := by decide +kernel

/-- 95_test_vectors.md section 2.5. -/
theorem test_endMix : (after (exec .endMix { counting with v := seedState 0 0 })).v =
    #v[0x8708368497B9DDA1, 0xCC9E93748BD91971, 0x154E66AF732B2937, 0xFFA991A222AAF6BE, 0x90527A74200CEBD1,
       0xDD7A206353D82D15, 0x4E5A6FBD4039737A, 0x53E8CF3895982C48, 0xB271971805E96B34, 0xB3C1DA26B2C0F76B,
       0x462E55BCAB0855D0, 0x7E541D907EF04A74] := by decide +kernel

/-- 95_test_vectors.md section 3.1, L = 63: one chunk, the 16-byte step and a tail of 15 bytes. -/
theorem test_short :
    let t := after (exec (.short false) (holding 64 (pattern 63)))
    t.dig1 = 0x80B5F47809C1AFB4 ∧ t.dig2 = 0xEF2B6C7857AEE941 := by decide +kernel

/-- 95_test_vectors.md section 3.4, L = 3. -/
theorem test_long : (after (exec (.long false) (holding 8 (pattern 3)))).readReg .dig2 = 0xF33C5CD2251FA5E4 := by
  decide +kernel

/-- 95_test_vectors.md section 3.3, "abc" under seeds (1, 2). -/
theorem test_hash128 :
    let t := after (exec (.hash128 false) { holding 8 [0x61, 0x62, 0x63] with seed1 := 1, seed2 := 2 })
    t.dig1 = 0x9505D5CD40A4AD9D ∧ t.dig2 = 0x09CE388E0B5EC17D := by decide +kernel

/-- 95_test_vectors.md section 3.3. -/
theorem test_hash64 :
    let t := after (exec (.hash64 false) (latched { holding 3 [0x61, 0x62, 0x63] with
      seed1 := 0x0123456789ABCDEF, seed2 := 9 }))
    t.dig1 = 0xEB7B396612130A0E ∧ t.dig2 = 0 := by decide +kernel

theorem test_hash32 :
    let t := after (exec (.hash32 false) (latched { holding 3 [0x61, 0x62, 0x63] with seed1 := 0xFFFFFFFF, seed2 := 9 }))
    t.dig1 = 0x00000000B02C8F41 ∧ t.dig2 = 0 := by decide +kernel

/-- 95_test_vectors.md section 3.5, the `HASH64.N` row: a null reference with a length. -/
theorem test_hash64_null :
    after (exec (.hash64 true) (latched (spanning 4096 0 1))) = { latched (spanning 4096 0 1) with err := 1 } := rfl

/-- 95_test_vectors.md section 3.5, the `HASH32.N` row: a null reference to the empty message. -/
theorem test_hash32_null : (after (exec (.hash32 true) (latched (spanning 4096 0 0)))).dig1 = 0x6BF50919 := by
  decide +kernel

/-- 20_memory.md R66: the span check is on exact integers (the addresses of 95_test_vectors.md section 3.5). -/
theorem test_short_out_of_range :
    after (exec (.short false) (spanning 4096 0xFFFFFFFFFFFFFFFF 2)) =
      { spanning 4096 0xFFFFFFFFFFFFFFFF 2 with err := 2 } ∧
    (after (exec (.short false) (spanning 4096 4096 0))).err = 0 ∧
    (after (exec (.short false) (spanning 4096 4097 0))).err = 2 :=
  ⟨rfl, by decide +kernel⟩

/-- 95_test_vectors.md section 4, E7. -/
theorem test_init : (after (exec .init { State.reset with seed1 := 1, seed2 := 2 })).eng.h =
    #v[1, 2, 0, 0, 0, 0, 0, 0, 0, 0, 0, 0] := by decide +kernel

theorem test_update_short :
    let t := after (exec (.update false) (holding 8 [0x61, 0x62, 0x63]))
    t.readReg (.ebuf 0) = 0x636261 ∧ t.readReg .ecnt = 3 ∧ t.readReg .elen = 3 ∧ t.eng.long = false := by
  decide +kernel

/-- 95_test_vectors.md section 4, E7: "abc" fed under seeds (1, 2), then `FINAL`. -/
theorem test_final :
    let t := after (exec .final { State.reset with eng := (Engine.init 1 2).update [0x61, 0x62, 0x63] })
    t.dig1 = 0x9505D5CD40A4AD9D ∧ t.dig2 = 0x09CE388E0B5EC17D := by decide +kernel

/-- 95_test_vectors.md section 5.1. -/
theorem test_dzero : after (exec .dzero (latched State.reset)) = State.reset := rfl

theorem test_dtohex : (after (exec .dtohex { State.reset with dig2 := 0xDEADBEEFDEADBEEF })).hex =
    #v[0x3030303030303030, 0x3030303030303030, 0x4645454244414544, 0x4645454244414544] := by decide +kernel

/-- 95_test_vectors.md section 5.2, T3: "0X" and "ab" 16 times. -/
theorem test_dparse :
    let t := after (exec (.dparse false) (holding 64 ([0x30, 0x58] ++ (List.replicate 16 [0x61, 0x62]).flatten)))
    t.dig1 = 0xABABABABABABABAB ∧ t.dig2 = 0xABABABABABABABAB ∧ t.parsed = true ∧ t.err = 0 := by decide +kernel

/-- 95_test_vectors.md section 5.2, F6: whitespace between the marker and the first digit. -/
theorem test_dparse_format :
    after (exec (.dparse false) (latched (holding 64 ([0x30, 0x78, 0x20] ++ zerosText 32)))) =
      { latched (holding 64 ([0x30, 0x78, 0x20] ++ zerosText 32)) with err := 3 } := rfl

/-- 95_test_vectors.md section 5.2, F4 and F11. -/
theorem test_dtryparse_failure :
    after (exec (.dtryparse false) (latched (holding 64 (zerosText 33)))) = holding 64 (zerosText 33) ∧
    after (exec (.dtryparse false) (latched (holding 64 (zerosText 32 ++ [0])))) =
      holding 64 (zerosText 32 ++ [0]) := ⟨rfl, rfl⟩

/-- 95_test_vectors.md section 5.2, T5. -/
theorem test_dtryparse :
    let t := after (exec (.dtryparse false) (holding 64 ([0x09, 0x0A, 0x0B, 0x0C, 0x0D] ++ List.replicate 32 0x66)))
    t.dig1 = 0xFFFFFFFFFFFFFFFF ∧ t.dig2 = 0xFFFFFFFFFFFFFFFF ∧ t.parsed = true := by decide +kernel

/-- 95_test_vectors.md section 5.4. -/
theorem test_deq :
    (after (exec .deq { State.reset with
      dig1 := 0x232706FC6BF50919, dig2 := 0x8B72EE65B4E851C7,
      cmp1 := 0x232706FC6BF50919, cmp2 := 0x8B72EE65B4E851C7 })).statusWord = 0x10 ∧
    (after (exec .deq { State.reset with
      dig1 := 0x8B72EE65B4E851C7, dig2 := 0x232706FC6BF50919,
      cmp1 := 0x232706FC6BF50919, cmp2 := 0x8B72EE65B4E851C7 })).statusWord = 0 := by decide +kernel

theorem test_dhash : (after (exec .dhash { State.reset with dig1 := 0x232706FC6BF50919 })).readReg .hcode =
    0x6BF50919 := by decide +kernel

/-- 20_memory.md R64: a host byte write and read at the last address, and past the end. -/
theorem test_host_message_byte :
    (after (step { given [.writeMsg 7 0xAB] with err := 2 })).msg = [(7, 0xAB)] ∧
    (after (step (given [.readMsg 2]))).readData = 0x63 ∧ (after (step (given [.readMsg 8]))).readData = 0 ∧
    (after (step (given [.writeMsg 0 0x61]))).msg = [] := by decide +kernel

/-- 10_state.md R23: a read-only register and a reserved slot ignore a host write. -/
theorem test_host_register :
    (after (step (given [.writeReg 0x3D 5]))) = given [] ∧ (after (step (given [.writeReg 0x58 5]))) = given [] ∧
    (after (step (given [.writeReg 0x1B 5]))).v[11] = 5 ∧ (after (step (given [.readReg 0x00]))).readData =
      0x53504F4F4B590002 := ⟨rfl, rfl, by decide +kernel⟩

/-! ### Part 3: states and operands that meet the hypotheses of the statements -/

theorem witness_HardwiredIdReadsAsSpooky :
    (given [.readReg 0x00, .reset]).pending = .readReg 0x00 :: [.reset] ∧
    (given [.writeReg 0x00 7]).pending = .writeReg 0x00 7 :: [] ∧ (∃ t, exec .nop State.reset = .next t) :=
  ⟨rfl, rfl, _, rfl⟩

theorem witness_CommandWriteStoresAndRuns :
    (given [.writeReg 0x01 0x11A]).pending = .writeReg 0x01 0x11A :: [] ∧ decode 0x11A = .ok (.hash128 true) ∧
    (given [.writeReg 0x01 0x36, .reset]).pending = .writeReg 0x01 0x36 :: [.reset] ∧
    decode 0x36 = .error .reservedOpcode ∧ (given [.readReg 0x01]).pending = .readReg 0x01 :: [] ∧
    (∃ t, exec (.dparse true) State.reset = .next t) :=
  ⟨rfl, by decide +kernel, rfl, by decide +kernel, rfl, _, rfl⟩

/-- 10_state.md R22: the edges of the reserved slots. -/
theorem witness_RegisterMapIsExact :
    regOf 0x1B = some (.v 11) ∧ regOf 0x1C = none ∧ regOf 0x1F = none ∧ regOf 0x20 = some (.w 0) ∧
    regOf 0x2B = some (.w 11) ∧ regOf 0x2C = none ∧ regOf 0x2F = none ∧ regOf 0x30 = some (.h 0) ∧
    regOf 0x3D = some .ecnt ∧ regOf 0x3E = none ∧ regOf 0x3F = none ∧ regOf 0x40 = some (.ebuf 0) ∧
    regOf 0x57 = some (.ebuf 23) ∧ regOf 0x58 = none ∧ regOf 0xFF = none := by decide +kernel

/-- A reserved slot, a read-only register, a read-write register, and an action that is no `CMD` write. -/
theorem witness_HostRegisterAccessRules :
    (given [.writeReg 0x58 1]).pending = .writeReg 0x58 1 :: [] ∧ regOf 0x58 = none ∧
    (given [.writeReg 0x57 1]).pending = .writeReg 0x57 1 :: [] ∧ regOf 0x57 = some (.ebuf 23) ∧
    Reg.readOnly (.ebuf 23) = true ∧ (given [.readReg 0x1C]).pending = .readReg 0x1C :: [] ∧ regOf 0x1C = none ∧
    (given [.readReg 0x3D]).pending = .readReg 0x3D :: [] ∧ regOf 0x3D = some .ecnt ∧
    (given [.writeReg 0x2B 9]).pending = .writeReg 0x2B 9 :: [] ∧ regOf 0x2B = some (.w 11) ∧
    Reg.readWrite (.w 11) = true ∧ (Reg.dig1 ≠ .w 11) ∧
    (∀ w, (given [.writeReg 0x02 9]).pending.head? ≠ some (.writeReg 0x01 w)) ∧
    ¬ (given [.writeReg 0x02 9]).nextIsReset ∧ (∃ t, step (given [.writeReg 0x02 9]) = .next t) :=
  ⟨rfl, by decide, rfl, by decide, rfl, rfl, by decide, rfl, by decide, rfl, by decide, rfl, by decide,
    fun w => by simp [given], by decide, _, rfl⟩

/-- `LONG` on both sides of 192. -/
theorem witness_StatusReadComputesLong :
    (given [.readReg 0x02]).pending = .readReg 0x02 :: [] ∧
    (after (step { given [.readReg 0x02] with eng := { Engine.reset with elen := 191 } })).readData = 0 ∧
    (after (step { given [.readReg 0x02] with eng := { Engine.reset with elen := 192 } })).readData = 0x40 :=
  ⟨rfl, by decide +kernel, by decide +kernel⟩

/-- A command that completes and one that raises an error, through the port. -/
theorem witness_CommandClearsErrOrOnlySetsIt :
    (∃ t, exec .dzero { State.reset with err := 4 } = .next t ∧ t.err = 0) ∧
    (∃ t, exec (.dparse true) State.reset = .next t ∧ t.err = 1) ∧
    (given [.writeReg 0x01 0x36]).pending = .writeReg 0x01 0x36 :: [] ∧
    (∃ t, step (given [.writeReg 0x01 0x36]) = .next t ∧ t.err = 4) :=
  ⟨⟨_, rfl, rfl⟩, ⟨_, rfl, rfl⟩, rfl, _, rfl, rfl⟩

theorem witness_EqChangesOnlyWhenDeqCompletes :
    ∃ t, step (given [.writeReg 0x01 0x34]) = .next t ∧ t.eq ≠ (given [.writeReg 0x01 0x34]).eq :=
  ⟨_, rfl, by decide +kernel⟩

/-- A `DPARSE` and a `DTRYPARSE` of a text that parses, a `DTRYPARSE` that fails, a `DPARSE` that raises `Format`. -/
theorem witness_ParsedChangesOnlyWhenParseCompletes :
    let ok := holding 32 (zerosText 32)
    (∃ t, step { ok with pending := [.writeReg 0x01 0x32] } = .next t ∧ t.err = 0 ∧ t.parsed ≠ ok.parsed) ∧
    (∃ t, step { ok with pending := [.writeReg 0x01 0x33] } = .next t ∧ t.err = 0 ∧ t.parsed = true) ∧
    (∃ t, step { ok with pending := [.writeReg 0x01 0x133], parsed := true } = .next t ∧ t.err = 0 ∧
      t.parsed = false) ∧
    (∃ t, step { ok with srcLen := 31, pending := [.writeReg 0x01 0x32] } = .next t ∧ t.err = 3) ∧
    State.nextCommand { ok with pending := [.writeReg 0x01 0x33] } = some (.dtryparse false) ∧
    ¬ State.nextIsReset { ok with pending := [.writeReg 0x01 0x32] } :=
  ⟨⟨_, rfl, by decide +kernel⟩, ⟨_, rfl, by decide +kernel⟩, ⟨_, rfl, by decide +kernel⟩, ⟨_, rfl, by decide +kernel⟩,
    by decide +kernel, by decide +kernel⟩

/-- Each result register changed by a command that has it as a result. -/
theorem witness_RegistersChangeOnlyByTheirCommands :
    (∃ t, exec .dzero (latched State.reset) = .next t ∧ t.dig1 ≠ (latched State.reset).dig1) ∧
    (∃ t, exec .dhash (latched State.reset) = .next t ∧ t.hcode ≠ 0) ∧
    (∃ t, exec .dtohex State.reset = .next t ∧ t.hex ≠ State.reset.hex) ∧
    (∃ t, exec (.rotl 11 1) counting = .next t ∧ t.v ≠ counting.v) ∧
    (∃ t, exec (.update false) (holding 3 [1, 2, 3]) = .next t ∧ t.eng.ecnt ≠ 0) ∧
    (∃ t, exec .deq State.reset = .next t ∧ t.eq ≠ State.reset.eq) ∧
    (∃ t, exec (.dparse false) (holding 32 (zerosText 32)) = .next t ∧ t.parsed ≠ false) :=
  ⟨⟨_, rfl, by decide +kernel⟩, ⟨_, rfl, by decide +kernel⟩, ⟨_, rfl, by decide +kernel⟩, ⟨_, rfl, by decide +kernel⟩,
    ⟨_, rfl, by decide +kernel⟩, ⟨_, rfl, by decide +kernel⟩, _, rfl, by decide +kernel⟩

theorem witness_CommandsLeaveHostOperandsAndMemory : ∃ t, exec (.update true) (latched counting) = .next t := ⟨_, rfl⟩

/-- The last address of a memory of 8 bytes and the first past it. -/
theorem witness_HostMessageByteAccess :
    (given [.writeMsg 7 5]).pending = .writeMsg 7 5 :: [] ∧ 7 < (given [.writeMsg 7 5]).cfg.msgSize ∧
    Memory.wf (given []).cfg [(2, 0x7A), (7, 1)] ∧
    (given [.writeMsg 8 5]).pending = .writeMsg 8 5 :: [] ∧ (given [.writeMsg 8 5]).cfg.msgSize ≤ 8 ∧
    (given [.readMsg 8]).pending = .readMsg 8 :: [] ∧ (6 : Nat) ≠ 7 ∧ (∃ t, exec .mix State.reset = .next t) :=
  ⟨rfl, by decide, by decide +kernel, rfl, by decide, rfl, by decide, _, rfl⟩

/-- A span that ends at the memory's end, one that is one byte too long, and an empty span at and past the end. -/
theorem witness_SpanCheckGuardsEveryMessageRead :
    Instr.dtryparse ∈ spanReaders ∧ (∃ t, exec (.dtryparse true) (spanning 8 3 5) = .next t) ∧
    (spanning 8 3 6).cfg.msgSize < (spanning 8 3 6).srcAddr.toNat + (spanning 8 3 6).srcLen.toNat ∧
    (spanning 8 3 5).srcAddr.toNat + (spanning 8 3 5).srcLen.toNat ≤ (spanning 8 3 5).cfg.msgSize ∧
    (∃ t, exec (.dtryparse false) (spanning 8 3 5) = .next t) ∧
    (spanning 8 8 0).srcLen = 0 ∧ (spanning 8 8 0).srcAddr.toNat ≤ (spanning 8 8 0).cfg.msgSize ∧
    (spanning 8 9 0).cfg.msgSize < (spanning 8 9 0).srcAddr.toNat :=
  ⟨by simp [spanReaders, oneShots], ⟨_, rfl⟩, by decide, by decide, ⟨_, rfl⟩, by decide, by decide, by decide⟩

/-- "abc" at address 0 and the same bytes at address 5, other bytes around them. -/
theorem witness_ReadersDependOnlyOnTheSpanBytes :
    let s := holding 8 [0x61, 0x62, 0x63]
    let m : Memory := [(0, 0x7A), (4, 1), (5, 0x61), (6, 0x62), (7, 0x63)]
    Instr.hash128 ∈ spanReaders ∧ s.spanInRange ∧ (5 : Word).toNat + s.srcLen.toNat ≤ s.cfg.msgSize ∧
    (∀ k < s.srcLen.toNat, Memory.read s.cfg m ((5 : Word).toNat + k) = s.msgByte (s.srcAddr.toNat + k)) ∧
    (∃ t, exec (.hash128 false) s = .next t) :=
  ⟨by simp [spanReaders, oneShots], by decide +kernel, by decide +kernel, by decide +kernel, _, rfl⟩

theorem witness_LittleEndianAssemblyIsTheByteSum :
    (pattern 8).length ≤ 8 ∧ (7 : Nat) < 8 ∧ le64 (pattern 8) = 0x8786858483828180 ∧ (pattern 4).length ≤ 4 ∧
    le32 (pattern 4) = 0x83828180 := by decide +kernel

theorem witness_RotationMovesEveryBit : (63 : Nat) < 64 ∧ 63 ∈ shortMixRot ++ shortEndRot ++ mixRot ++ endRot ∧
    5 ∈ shortMixRot ++ shortEndRot ++ mixRot ++ endRot := by decide

theorem witness_DecodeOfEncodeIsTheCommand : WellFormed (.rotl 11 63) ∧ WellFormed (.rotl 0 0) ∧
    WellFormed (.dtryparse true) := by decide

theorem witness_DecodedWordIsItsEncoding : decode 0x000000003F0B0010 = .ok (.rotl 11 63) ∧
    decode 0x0000000000000133 = .ok (.dtryparse true) := by decide +kernel

/-- One bit past a field, and the first illegal `REG`. -/
theorem witness_LegalWordsAreExactlyTheTable :
    ¬ legalWord 0x0000000000000232 ∧ ¬ legalWord 0x00000000000C0010 ∧ legalWord 0x00000000000B0010 ∧
    (given [.writeReg 0x01 0x232]).pending = .writeReg 0x01 0x232 :: [] :=
  ⟨by decide +kernel, by decide +kernel, by decide +kernel, rfl⟩

theorem witness_OpcodeRowsNeverOverlap :
    OpcodeRow.hits ⟨"ROTL", 0x10, 0xFFFFFFFFC0F0FFFF⟩ 0x000000003F0F0010 ∧
    (⟨"ROTL", 0x10, 0xFFFFFFFFC0F0FFFF⟩ : OpcodeRow) ∈ opcodeRows := by decide +kernel

theorem witness_RotrRotatesRight : (10 : Fin 12) ≠ 11 ∧
    (after (exec (rotrInstr 0 11) { State.reset with v := setAt State.reset.v 0 0x0123456789ABCDEF })).v[0] =
      0xBDE02468ACF13579 := by decide +kernel

theorem witness_NopOnlyClearsErr : opField 0x8000000000000000 = 0x00 ∧ ¬ (0x8000000000000000 : Word) = 0 := by
  decide +kernel

/-- `REG` = 12 in a word, `REG` 12 and 15 as an operand, and amounts 0, 1 and 63. -/
theorem witness_RotlRotatesOneRegister :
    opField 0x00000000010C0010 = 0x10 ∧
    ¬ ((0x00000000010C0010 : Word) &&& 0xFFFFFFFFC0F0FFFF = 0x10 ∧
        ((0x00000000010C0010 : Word).extractLsb' 16 4).toNat ≤ 11) ∧
    11 < (12 : BitVec 4).toNat ∧ 11 < (15 : BitVec 4).toNat ∧ (3 : Fin 12) ≠ 11 ∧ (0 : BitVec 6) = 0 ∧
    (1 : BitVec 6) ≠ 0 ∧ (63 : BitVec 6) ≠ 0 := by decide +kernel

theorem witness_ShortMixAndShortEndWrittenOut : 4 ≤ (4 : Fin 12).val ∧ 4 ≤ (11 : Fin 12).val := by decide

/-- Three rounds on the sum of `V` and `W`, and three rounds with `W` all zero. -/
theorem witness_EndPartialAndEndWrittenOut :
    (∃ t1 t2 t3, exec .endPartial { counting with v := counting.v.zipWith (· + ·) counting.w } = .next t1 ∧
      exec .endPartial t1 = .next t2 ∧ exec .endPartial t2 = .next t3) ∧
    State.reset.w = Vector.replicate 12 0 ∧
    (∃ t1 t2 t3, exec .endPartial State.reset = .next t1 ∧ exec .endPartial t1 = .next t2 ∧
      exec .endPartial t2 = .next t3) :=
  ⟨⟨_, _, _, rfl, rfl, rfl⟩, rfl, _, _, _, rfl, rfl, rfl⟩

theorem witness_MixFunctionsInvertAndFixZero :
    shortMix #v[1, 2, 3, 4] = shortMix #v[1, 2, 3, 4] ∧ shortEnd #v[1, 2, 3, 4] = shortEnd #v[1, 2, 3, 4] ∧
    mix counting.w counting.v = mix counting.w counting.v ∧ endPartial counting.v = endPartial counting.v ∧
    endMix counting.w counting.v = endMix counting.w counting.v :=
  ⟨rfl, rfl, rfl, rfl, rfl⟩

/-- A null reference to the empty message, and a span that ends at the memory's end; for both statements on the one-shot
commands. -/
theorem witness_ShortLongHash128Complete :
    (spanning 4 9 0).srcLen = 0 ∧
    (holding 3 [0x61, 0x62, 0x63]).srcAddr.toNat + (holding 3 [0x61, 0x62, 0x63]).srcLen.toNat ≤
      (holding 3 [0x61, 0x62, 0x63]).cfg.msgSize ∧
    [0x61, 0x62, 0x63] = (holding 3 [0x61, 0x62, 0x63]).msgBytes 0 3 := by decide +kernel

theorem witness_Hash64AndHash32FromHash128 :
    (spanning 4 5 0).srcLen = 0 ∧
    (spanning 192 0 192).srcAddr.toNat + (spanning 192 0 192).srcLen.toNat ≤ (spanning 192 0 192).cfg.msgSize := by
  decide +kernel

theorem witness_Hash128SelectsThePath :
    (spanning 192 0 191).srcLen.toNat < 192 ∧ 192 ≤ (spanning 192 0 192).srcLen.toNat := by decide +kernel

theorem witness_ShortTailTable :
    (pattern 0).length = 0 ∧ 1 ≤ (pattern 1).length ∧ (pattern 1).length ≤ 8 ∧ (pattern 8).length ≤ 8 ∧
    9 ≤ (pattern 9).length ∧ (pattern 9).length ≤ 15 ∧ (pattern 15).length ≤ 15 := by decide +kernel

theorem witness_TaggedBlockLayout :
    (pattern 0).length ≤ 95 ∧ (pattern 95).length ≤ 95 ∧ 94 < (pattern 95).length ∧ (pattern 0).length ≤ 94 ∧
    (94 : Nat) < 95 ∧ (pattern 96).length % 96 = 0 ∧ (pattern 0).length % 96 = 0 := by decide +kernel

theorem witness_InitStoresSeedsAndClears : opField 0x0000000000000120 = 0x20 ∧ ¬ (0x120 : Word) = 0x20 ∧
    2 ≤ (2 : Fin 12).val := by decide +kernel

/-- 188 bytes buffered and 3 more: the last total below 192. -/
theorem witness_UpdateBuffersAShortMessage :
    let s := { holding 8 [0x61, 0x62, 0x63] with eng := { Engine.reset with ecnt := 188 } }
    messageOperand false s = .ok [0x61, 0x62, 0x63] ∧ s.eng.ecnt.toNat + [(0x61 : Byte), 0x62, 0x63].length < 192 ∧
    messageOperand true (spanning 8 9 0) = .ok [] :=
  ⟨rfl, by decide +kernel, rfl⟩

/-- A span inside the memory is the message, with no null reference. -/
theorem message_of_span {s : State} (h : s.spanInRange) : messageOperand false s = .ok s.spanBytes := by
  rw [messageOperand_false, spanOperand_of_inRange h]

/-- 191 bytes buffered and one more; and 192 bytes into an empty buffer. -/
theorem witness_UpdateAbsorbsBlocksInOrder :
    (let s := { holding 8 [0x61] with eng := { Engine.reset with ecnt := 191 } }
     messageOperand false s = .ok [0x61] ∧ s.eng.ecnt.toNat ≤ 191 ∧ 192 ≤ s.eng.ecnt.toNat + [(0x61 : Byte)].length) ∧
    ∃ m, messageOperand false (spanning 192 0 192) = .ok m ∧ 192 ≤ (spanning 192 0 192).eng.ecnt.toNat + m.length :=
  ⟨⟨rfl, by decide +kernel, by decide +kernel⟩, _, message_of_span (by decide +kernel), by decide +kernel⟩

theorem witness_UpdateKeepsTheEngineInvariant :
    Engine.reset.Holds 0 0 [] ∧
    ∃ d, messageOperand false (spanning 192 0 192) = .ok d ∧ ([] ++ d).length < 2 ^ 64 :=
  ⟨⟨by decide +kernel, by decide +kernel, by decide +kernel, by decide +kernel⟩, _, message_of_span (by decide +kernel),
    by decide +kernel⟩

theorem witness_FinalIsNonDestructive : counting.eng = State.reset.eng := rfl

theorem witness_ChunkedUpdatesEqualOneShot : [pattern 100, [], pattern 92, pattern 191].flatten.length < 2 ^ 64 := by
  decide +kernel

/-- Three bytes fed after power-on, then a `FINAL`: a run with a host write, an `UPDATE` and a refused `UPDATE`. -/
theorem witness_ChunkInvarianceOfRuns :
    ∃ s, EngineStream 0 0 ([] ++ [0x61, 0x62, 0x63]) s ∧ ([] ++ [(0x61 : Byte), 0x62, 0x63]).length < 2 ^ 64 ∧
      s.nextCommand = some .final := by
  let c : Config := { msgSize := 8, msgInit := [0x61, 0x62, 0x63] }
  let actions : List HostAction :=
    [.writeReg 0x06 3, .writeReg 0x01 0x21, .writeReg 0x01 0x121, .writeReg 0x01 0x22]
  have run : EngineStream 0 0 [] { State.resetWith c with pending := actions } := .powerOn rfl rfl
  have run := EngineStream.other (t := after (step { State.resetWith c with pending := actions })) run
    (by decide +kernel) (by decide +kernel) (by decide +kernel) rfl
  have run := EngineStream.feed (n := false) (d := [0x61, 0x62, 0x63])
    (t := after (step (after (step { State.resetWith c with pending := actions })))) run (by decide +kernel) rfl rfl
  have run := EngineStream.refusedFeed (n := true) (e := .invalidArgument)
    (t := after (step (after (step (after (step { State.resetWith c with pending := actions })))))) run
    (by decide +kernel) rfl rfl
  exact ⟨_, run, by decide, by decide +kernel⟩

/-- Two engines that differ in a stale byte and in `H11`, one byte buffered. -/
theorem witness_StaleBufferBytesNeverMatter :
    let a := { Engine.init 1 2 with elen := 1, ecnt := 1 }
    let b := { a with ebuf := fillBuffer a.ebuf 191 [7], h := setAt a.h 11 9 }
    a.coherent ∧ a.agrees b ∧ a ≠ b := by
  unfold Engine.coherent Engine.agrees
  decide +kernel

theorem witness_EngineAndWorkingRegistersAreSeparate :
    isEngine (.long false) = false ∧ (∃ t, exec (.long false) (spanning 8 0 8) = .next t) ∧
    isMixer (.update false) = false ∧ (∃ t, exec (.update false) (spanning 8 0 8) = .next t) :=
  ⟨rfl, ⟨_, rfl⟩, rfl, _, rfl⟩

theorem witness_DzeroLoadsZero : opField 0x0000000000000130 = 0x30 ∧ ¬ (0x130 : Word) = 0x30 ∧
    (∃ t, exec (.dtryparse false) (latched (spanning 8 0 8)) = .next t ∧ t.err = 0 ∧ t.parsed = false) :=
  ⟨by decide +kernel, by decide +kernel, _, rfl, by decide +kernel⟩

theorem witness_DtohexWritesTheText : opField 0x0000000000000131 = 0x31 ∧ ¬ (0x131 : Word) = 0x31 := by decide +kernel

/-- A text with a marker, whitespace and both cases, and its digits. -/
theorem witness_ParseAcceptsExactlyTheGrammar :
    DigestText ([0x20, 0x30, 0x58] ++ zerosText 31 ++ [0x09, 0x61, 0x0A]) (nibbles (0, 10)) ∧
    parseText ([0x20, 0x30, 0x58] ++ zerosText 31 ++ [0x09, 0x61, 0x0A]) = some (0, 10) :=
  ⟨⟨[0x20], [0x30, 0x58], 0x30, List.replicate 30 ([], 0x30) ++ [([0x09], 0x61)], [0x0A], by decide +kernel⟩,
    by decide +kernel⟩

theorem witness_ParseToleratesSpacesMarkerAndCase :
    DigestText ([0x30, 0x78] ++ zerosText 31 ++ [0x41]) (nibbles (0, 10)) :=
  ⟨[], [0x30, 0x78], 0x30, List.replicate 30 ([], 0x30) ++ [([], 0x41)], [], by decide +kernel⟩

/-- A span one byte too long; a span that ends at the memory's end, with a text that parses and one that does not. -/
theorem witness_DparseResults :
    opField 0x0000000000000232 = 0x32 ∧ ¬ ((0x232 : Word) = 0x32 ∨ (0x232 : Word) = 0x132) ∧
    (spanning 32 0 33).cfg.msgSize < (spanning 32 0 33).srcAddr.toNat + (spanning 32 0 33).srcLen.toNat ∧
    (holding 32 (zerosText 32)).spanInRange ∧ parseText ((holding 32 (zerosText 32)).msgBytes 0 32) = some (0, 0) ∧
    (spanning 32 0 32).spanInRange ∧ parseText ((spanning 32 0 32).msgBytes 0 32) = none ∧
    (∀ b ∈ [(0x09 : Byte), 0x20], isSpace b) ∧ (0x00 : Byte) ∈ zerosText 32 ++ [0x00] := by decide +kernel

theorem witness_DtryparseResults :
    opField 0x0000000000000233 = 0x33 ∧ ¬ ((0x233 : Word) = 0x33 ∨ (0x233 : Word) = 0x133) ∧
    (spanning 32 0 33).cfg.msgSize < (spanning 32 0 33).srcAddr.toNat + (spanning 32 0 33).srcLen.toNat ∧
    (spanning 32 0 32).spanInRange ∧ parseText ((spanning 32 0 32).msgBytes 0 32) = none ∧
    (holding 32 (zerosText 32)).spanInRange ∧ parseText ((holding 32 (zerosText 32)).msgBytes 0 32) = some (0, 0) := by
  decide +kernel

theorem witness_DeqAndDhashResults :
    opField 0x0000000000000134 = 0x34 ∧ ¬ (0x134 : Word) = 0x34 ∧ opField 0x0000000000000135 = 0x35 ∧
    ¬ (0x135 : Word) = 0x35 ∧ (State.reset.dig1, State.reset.dig2) = (counting.dig1, counting.dig2) ∧
    (∃ u, exec .dhash State.reset = .next u) :=
  ⟨by decide +kernel, by decide +kernel, by decide +kernel, by decide +kernel, rfl, _, rfl⟩

/-- The text of a latch, and a memory that holds it. -/
theorem witness_HexTextParsesBack :
    let d : State := { State.reset with dig1 := 0x0123456789ABCDEF, dig2 := 0xFEDCBA9876543210 }
    let u := holding 32 (hexText (d.dig1, d.dig2))
    ∃ t, exec .dtohex d = .next t ∧ u.spanInRange ∧ u.spanBytes = hexBytes t.hex :=
  ⟨_, rfl, by decide +kernel, by decide +kernel⟩

theorem witness_NullReferenceErrors :
    Instr.update ∈ oneShots ++ [.update] ∧ (spanning 8 0 1).srcLen ≠ 0 ∧ (spanning 8 0 0).srcLen = 0 ∧
    (∃ t, exec (.dtryparse true) (spanning 8 0 1) = .next t) ∧
    (∃ t, exec (.hash32 true) (spanning 8 0 1) = .next t ∧ t.err = 1) ∧
    (∃ t, exec (.dparse true) (spanning 8 0 0) = .next t ∧ t.err = 1) :=
  ⟨by simp [oneShots], by decide, by decide, ⟨_, rfl⟩, ⟨_, rfl, by decide +kernel⟩, _, rfl, by decide +kernel⟩

theorem witness_FormatErrorOnlyFromDparse :
    (spanning 8 0 8).spanInRange ∧ parseText (spanning 8 0 8).spanBytes = none ∧
    (∃ t, exec (.dparse false) (spanning 8 0 8) = .next t ∧ t.err = 3) :=
  ⟨by decide +kernel, by decide +kernel, _, rfl, by decide +kernel⟩

theorem witness_ErrorPriority :
    decode 0x232 = .error .reservedBits ∧ Instr.hash32 ∈ oneShots ++ [.update] ∧ (spanning 8 0 9).srcLen ≠ 0 ∧
    ¬ (spanning 8 0 9).spanInRange ∧ parseText (spanning 8 0 9).spanBytes = none :=
  ⟨by decide +kernel, by simp [oneShots], by decide, by decide +kernel, by decide +kernel⟩

theorem witness_ReissuedErrorRepeats : ∃ t, exec (.hash64 true) (spanning 8 0 1) = .next t ∧ t.err ≠ 0 :=
  ⟨_, rfl, by decide +kernel⟩

theorem witness_ResetEventClearsEveryRegister : (given [.reset, .readReg 0]).nextIsReset ∧ Reg.ebuf 23 ≠ .id := by
  decide

theorem witness_ResetEngineIsInitZero : State.reset.seed1 = 0 ∧ State.reset.seed2 = 0 ∧
    (∃ t, exec .init (latched State.reset) = .next t) :=
  ⟨rfl, rfl, _, rfl⟩

/-- Both ends of the range of `MSG_SIZE`. -/
theorem witness_ResetMeetsTheInvariant : Config.wf { msgSize := 1, msgInit := [] } ∧
    Config.wf { msgSize := 2 ^ 32, msgInit := [0xFF] } := by decide

/-- A state that meets the invariant, with bytes stored, a full buffer and a text, about to take a host action. -/
theorem witness_EveryStepKeepsTheInvariant :
    let s := { after (exec .dtohex (given [.writeMsg 7 5])) with
      msg := [(2, 0x7A), (7, 1)], eng := { Engine.reset with ecnt := 191, elen := 191 }, err := 4 }
    s.Inv ∧ ∃ t, step s = .next t ∧ t.msg = [(2, 0x7A), (7, 5)] := by
  refine ⟨?_, _, rfl, by decide +kernel⟩
  unfold State.Inv textLegal
  decide +kernel

/-! ### Parts 2 and 3: the tests that take the kernel longest -/

/-- 95_test_vectors.md section 3.2, L = 192: the first length on the Long path, under two different seeds. -/
theorem test_hash128_long :
    let t := after (exec (.hash128 false) { holding 192 (pattern 192) with
      seed1 := 0x0123456789ABCDEF, seed2 := 0xFEDCBA9876543210 })
    t.dig1 = 0x1D58C9181E4D0353 ∧ t.dig2 = 0xF9BE7682EC7143C3 := by decide +kernel

/-- 95_test_vectors.md section 4, E8: 200 bytes at once. -/
theorem test_update_long :
    let t := after (exec (.update false) (holding 200 (pattern 200)))
    t.eng.h[0] = 0x2A964AB5EC255679 ∧ t.eng.h[11] = 0x16B89DD2886E573F ∧ t.readReg (.ebuf 0) = 0x4746454443424140 ∧
      t.readReg (.ebuf 1) = 0 ∧ t.readReg .ecnt = 8 ∧ t.eng.long = true := by decide +kernel

/-- The engine holds messages of 3, of 191 and of 192 bytes. -/
theorem witness_FinalHashesTheAbsorbedMessage :
    ((Engine.init 1 2).update [0x61, 0x62, 0x63]).Holds 1 2 [0x61, 0x62, 0x63] ∧
    ((Engine.init 1 2).update (pattern 191)).Holds 1 2 (pattern 191) ∧
    ((Engine.init 1 2).update (pattern 192)).Holds 1 2 (pattern 192) :=
  ⟨⟨by decide +kernel, by decide +kernel, by decide +kernel, by decide +kernel⟩,
    ⟨by decide +kernel, by decide +kernel, by decide +kernel, by decide +kernel⟩,
    by decide +kernel, by decide +kernel, by decide +kernel, by decide +kernel⟩

end Sys2Proof.Tests
end

section
/-! SUPPORT. The words of 00_scope.md: little-endian assembly (R13) and rotation (R15), with the statements about
them. -/

namespace Sys2Proof.Machine

/-! ### Little-endian assembly -/

/-- The sum of the bytes of `t`, byte `i` shifted to bit `8 * i`, in a word of `n` bits (R13). -/
def shiftedByteSum (n : Nat) (t : List Byte) : BitVec n :=
  ((List.range t.length).map fun i => (t.getD i 0).setWidth n <<< (8 * i)).sum

/-- Shifting a sum of words shifts every word. -/
theorem sum_shiftLeft {n : Nat} (l : List (BitVec n)) (k : Nat) :
    l.sum <<< k = (l.map fun x : BitVec n => x <<< k).sum := by
  induction l with
  | nil => simp
  | cons x l ih => simp [ih]

/-- A byte in front moves the sum of the others up by 8 bits. -/
theorem shiftedByteSum_cons (n : Nat) (b : Byte) (t : List Byte) :
    shiftedByteSum n (b :: t) = b.setWidth n + shiftedByteSum n t <<< 8 := by
  simp [shiftedByteSum, sum_shiftLeft, List.range_succ_eq_map, Function.comp_def, Nat.mul_add, BitVec.shiftLeft_add]

theorem le64_eq_shiftedByteSum (t : List Byte) : le64 t = shiftedByteSum 64 t := by
  induction t with
  | nil => rfl
  | cons b t ih => rw [le64, ih, shiftedByteSum_cons]

theorem le32_eq_shiftedByteSum (t : List Byte) : le32 t = shiftedByteSum 32 t := by
  induction t with
  | nil => rfl
  | cons b t ih => rw [le32, ih, shiftedByteSum_cons]

/-- The 4-byte assembly is the low half of the 8-byte one. -/
theorem le32_eq_extractLsb'_le64 (t : List Byte) : le32 t = (le64 t).extractLsb' 0 32 := by
  rw [← BitVec.setWidth_eq_extractLsb' (by omega)]
  induction t with
  | nil => rfl
  | cons b t ih => simp [le32, le64, ih, BitVec.setWidth_add]

/-- The first byte and the others meet in no bit, so their sum is their union. -/
theorem le64_cons_eq_or (b : Byte) (t : List Byte) : le64 (b :: t) = b.setWidth 64 ||| le64 t <<< 8 := by
  apply BitVec.add_eq_or_of_and_eq_zero
  ext j hj
  by_cases low : j < 8
  · simp [low]
  · simp [BitVec.getLsbD_of_ge b j (by omega)]

/-- Bit `j` of the assembled word of `b :: t`: the bits of `b`, then those of `t`. -/
theorem getLsbD_le64_cons (b : Byte) (t : List Byte) {j : Nat} (h : j < 64) :
    (le64 (b :: t)).getLsbD j = if j < 8 then b.getLsbD j else (le64 t).getLsbD (j - 8) := by
  rw [le64_cons_eq_or]
  simp only [BitVec.getLsbD_or, BitVec.getLsbD_setWidth, BitVec.getLsbD_shiftLeft]
  split
  · next low => simp [h, low]
  · next high => simp [h, high, BitVec.getLsbD_of_ge b j (by omega)]

/-- Bit `j` of byte `i` of a word. -/
theorem getLsbD_byteOf (x : Word) (i : Nat) {j : Nat} (h : j < 8) : (byteOf x i).getLsbD j = x.getLsbD (8 * i + j) := by
  simp [byteOf, h]

/-- Byte `i` of the word is byte `i` of the sequence; a missing byte is 0. -/
theorem byteOf_le64 (t : List Byte) {i : Nat} (h : i < 8) : byteOf (le64 t) i = t.getD i 0 := by
  induction t generalizing i with
  | nil => simp [byteOf, le64]
  | cons b t ih =>
    apply BitVec.eq_of_getLsbD_eq
    intro j hj
    rw [getLsbD_byteOf _ _ hj, getLsbD_le64_cons b t (by omega)]
    cases i with
    | zero => simp [hj]
    | succ i =>
      rw [if_neg (by omega), show 8 * (i + 1) + j - 8 = 8 * i + j by omega, ← getLsbD_byteOf _ _ hj, ih (by omega),
        List.getD_cons_succ]

/-- Settles O15: the assembly is the shifted sum by induction over the bytes, and each byte is read back bit by bit. -/
theorem littleEndianAssemblyIsTheByteSum : Obligations.LittleEndianAssemblyIsTheByteSum := fun t =>
  ⟨fun _ => ⟨le64_eq_shiftedByteSum t, fun _ => byteOf_le64 t⟩,
    fun _ => ⟨le32_eq_shiftedByteSum t, le32_eq_extractLsb'_le64 t⟩⟩

/-! ### Rotation -/

/-- The formula of R15 is the library's rotation. -/
theorem rotl64_eq_rotateLeft (x : Word) (k : Nat) : rotl64 x k = x.rotateLeft k := by
  unfold rotl64
  split
  · next h => simp [BitVec.rotateLeft, BitVec.rotateLeftAux, BitVec.ushiftRight_eq_zero, h]
  · rfl

/-- Bit `i` of the rotated word comes from bit `i - k` mod 64. -/
theorem getLsbD_rotl64 (x : Word) (k : Nat) {i : Nat} (h : i < 64) :
    (rotl64 x k).getLsbD i = x.getLsbD ((i + (64 - k % 64)) % 64) := by
  rw [rotl64_eq_rotateLeft, BitVec.getLsbD_rotateLeft]
  by_cases wraps : i < k % 64
  · rw [show (i + (64 - k % 64)) % 64 = 64 - k % 64 + i by omega]
    simp [wraps]
  · rw [show (i + (64 - k % 64)) % 64 = i - k % 64 by omega]
    simp [wraps, h]

/-- Settles O16: the rotation is the library's, and the amounts are four finite lists. -/
theorem rotationMovesEveryBit : Obligations.RotationMovesEveryBit :=
  ⟨fun x k => ⟨rfl, fun _ => getLsbD_rotl64 x k⟩, by decide⟩

end Sys2Proof.Machine
end

section
/-! SUPPORT. The Long algorithm written out (41_mixer_oneshot.md R133): the words of a block, the loops of `Mix` and
`EndPartial` as their lines, the blocks in order and the tagged last block. -/

namespace Sys2Proof.Machine

/-! ### Words of a block -/

@[simp] theorem words_getElem (blk : List Byte) (j : Nat) (h : j < 12) :
    (words blk)[j] = le64 (slice blk (8 * j) (8 * j + 8)) := by
  simp [words]

/-- Byte `i` of word `j` is byte `8 * j + i` of the block. -/
theorem byteOf_words (blk : List Byte) {j i : Nat} (hj : j < 12) (hi : i < 8) :
    byteOf (words blk)[j] i = blk.getD (8 * j + i) 0 := by
  rw [words_getElem, byteOf_le64 _ hi]
  simp [slice, List.getD_eq_getElem?_getD, hi]

/-- The words of the block that starts `n` bytes in. -/
theorem words_slice_drop (m : List Byte) (n : Nat) :
    words (slice (m.drop n) 0 96) =
      Vector.ofFn fun j : Fin 12 => le64 (slice m (n + 8 * j.val) (n + 8 * j.val + 8)) := by
  have first : words (slice (m.drop n) 0 96) = words (m.drop n) := words_congr (by simp [slice])
  rw [first]
  refine congrArg Vector.ofFn (funext fun j => ?_)
  rw [slice_drop, Nat.add_assoc]

/-! ### The loops as their lines -/

/-- A statement about twelve words holds when it holds of every literal vector. -/
theorem vector12_cases {motive : Vector Word 12 → Prop}
    (literal : ∀ h0 h1 h2 h3 h4 h5 h6 h7 h8 h9 h10 h11, motive #v[h0, h1, h2, h3, h4, h5, h6, h7, h8, h9, h10, h11])
    (h : Vector Word 12) : motive h := by
  have elements : h = #v[h[0], h[1], h[2], h[3], h[4], h[5], h[6], h[7], h[8], h[9], h[10], h[11]] := by
    ext i hi
    interval_cases i <;> rfl
  exact elements ▸ literal ..

/-- The twelve steps of a loop over the words, in order. -/
theorem finRange_twelve : List.finRange 12 = [0, 1, 2, 3, 4, 5, 6, 7, 8, 9, 10, 11] := by decide

/-- The loop of `Mix` runs the twelve lines of R104. -/
theorem mix_eq_mixLines (d h : Vector Word 12) : mix d h = mixLines d h := by
  cases h using vector12_cases with
  | literal h0 h1 h2 h3 h4 h5 h6 h7 h8 h9 h10 h11 =>
    change _ = mixSpelled _ _ _ _ _ _ _ _ _ _ _ _ h0 h1 h2 h3 h4 h5 h6 h7 h8 h9 h10 h11
    simp [mix, finRange_twelve, mixStep, setAt, mixRot, mixSpelled]

/-- The loop of `EndPartial` runs the twelve lines of R105. -/
theorem endPartial_eq_endPartialLines (h : Vector Word 12) : endPartial h = endPartialLines h := by
  cases h using vector12_cases with
  | literal h0 h1 h2 h3 h4 h5 h6 h7 h8 h9 h10 h11 =>
    change _ = endPartialSpelled h0 h1 h2 h3 h4 h5 h6 h7 h8 h9 h10 h11
    simp [endPartial, finRange_twelve, endPartialStep, setAt, endRot, endPartialSpelled]

/-- `End` adds the data word by word and runs the lines of `EndPartial` three times (R106). -/
theorem endMix_eq_endPartialLines (d h : Vector Word 12) :
    endMix d h = endPartialLines (endPartialLines (endPartialLines (h.zipWith (· + ·) d))) := by
  have added : (Vector.ofFn fun i : Fin 12 => h[i] + d[i]) = h.zipWith (· + ·) d := by ext; simp
  rw [endMix, added]
  simp only [endPartial_eq_endPartialLines]

/-! ### Blocks in order -/

/-- Block `k` enters after the first `k` by the lines of `Mix`, as twelve little-endian words of the message. -/
theorem mixBlocks_succ (k : Nat) (m : List Byte) (h : Vector Word 12) :
    mixBlocks (k + 1) m h =
      mixLines (Vector.ofFn fun j => le64 (slice m (96 * k + 8 * j.val) (96 * k + 8 * j.val + 8)))
        (mixBlocks k m h) := by
  rw [mixBlocks_add, mixBlocks, mixBlocks_zero, mix_eq_mixLines, words_slice_drop]

/-! ### The tagged block -/

/-- The partial block, zeros, and its length as the last byte. -/
theorem taggedBlock_eq_append {t : List Byte} (h : t.length ≤ 95) :
    taggedBlock t = t ++ List.replicate (95 - t.length) 0 ++ [BitVec.ofNat 8 t.length] := by
  have tail : zeros (96 - t.length) = List.replicate (95 - t.length) 0 ++ [0] := by
    rw [zeros, show 96 - t.length = 95 - t.length + 1 by omega, List.replicate_succ']
  rw [taggedBlock, tail, ← List.append_assoc, List.set_append_right _ _ (by simp; omega)]
  simp [show 95 - (t.length + (95 - t.length)) = 0 by omega]

theorem taggedBlock_length {t : List Byte} (h : t.length ≤ 95) : (taggedBlock t).length = 96 := by
  simp [taggedBlock_eq_append h]
  omega

/-- The message bytes come first. -/
theorem taggedBlock_getD_message {t : List Byte} (h : t.length ≤ 95) {i : Nat} (hi : i < t.length) :
    (taggedBlock t).getD i 0 = t.getD i 0 := by
  rw [taggedBlock_eq_append h, List.append_assoc, List.getD_append _ _ _ _ hi]

/-- Zeros stand between the message bytes and the tag. -/
theorem taggedBlock_getD_padding {t : List Byte} {i : Nat} (hi : t.length ≤ i) (h95 : i < 95) :
    (taggedBlock t).getD i 0 = 0 := by
  rw [taggedBlock_eq_append (by omega), List.getD_append _ _ _ _ (by simp; omega),
    List.getD_append_right _ _ _ _ hi, List.getD_replicate _ (by omega)]

/-- The last byte of the 96 is the count of bytes of the partial block. -/
theorem taggedBlock_getD_tag {t : List Byte} (h : t.length ≤ 95) :
    (taggedBlock t).getD 95 0 = BitVec.ofNat 8 t.length := by
  rw [taggedBlock_eq_append h, List.getD_append_right _ _ _ _ (by simp; omega)]
  simp [show 95 - (t.length + (95 - t.length)) = 0 by omega]

/-- The tagged block of no bytes is all zero. -/
theorem words_taggedBlock_nil : words (taggedBlock []) = Vector.replicate 12 0 := by decide

/-- The tagged block, byte by byte and in its last word. -/
theorem taggedBlock_layout {t : List Byte} (h : t.length ≤ 95) :
    (taggedBlock t).length = 96 ∧ (∀ i < t.length, (taggedBlock t).getD i 0 = t.getD i 0) ∧
    (∀ i, t.length ≤ i → i < 95 → (taggedBlock t).getD i 0 = 0) ∧
    ((taggedBlock t).getD 95 0).toNat = t.length ∧
    byteOf (words (taggedBlock t))[11] 7 = BitVec.ofNat 8 t.length := by
  refine ⟨taggedBlock_length h, fun _ => taggedBlock_getD_message h, fun _ => taggedBlock_getD_padding, ?_, ?_⟩
  · rw [taggedBlock_getD_tag h, BitVec.toNat_ofNat, Nat.mod_eq_of_lt (by omega)]
  · rw [byteOf_words _ (by omega) (by omega), taggedBlock_getD_tag h]

/-! ### The digest -/

/-- The Long digest from the whole blocks and the partial block behind them (R133). -/
theorem longHash_eq_endMix (m : List Byte) (s1 s2 : Word) :
    let e := endMix (words (taggedBlock (m.drop (m.length - m.length % 96))))
      (mixBlocks (m.length / 96) m (seedState s1 s2))
    longHash m s1 s2 = (e[0], e[1]) := by
  rw [longHash, longFinish, show 96 * (m.length / 96) = m.length - m.length % 96 by omega]

/-- The Long digest with its tagged block and its three end rounds written out. -/
theorem longHash_eq_endPartialLines (m : List Byte) (s1 s2 : Word) :
    let h := mixBlocks (m.length / 96) m (seedState s1 s2)
    let r := m.length % 96
    let blk := m.drop (m.length - r) ++ List.replicate (95 - r) 0 ++ [BitVec.ofNat 8 r]
    let e := endPartialLines (endPartialLines (endPartialLines (h.zipWith (· + ·) (words blk))))
    longHash m s1 s2 = (e[0], e[1]) := by
  have rest : (m.drop (m.length - m.length % 96)).length = m.length % 96 := by
    rw [List.length_drop]
    omega
  simp only [longHash_eq_endMix, endMix_eq_endPartialLines]
  rw [taggedBlock_eq_append (by omega), rest]

/-- Past whole blocks alone the end adds nothing. -/
theorem longHash_of_whole_blocks {m : List Byte} (s1 s2 : Word) (whole : m.length % 96 = 0) :
    let e := endMix (Vector.replicate 12 0) (mixBlocks (m.length / 96) m (seedState s1 s2))
    longHash m s1 s2 = (e[0], e[1]) := by
  simp only [longHash_eq_endMix, whole, Nat.sub_zero, List.drop_length, words_taggedBlock_nil]

/-- Settles O33: the clauses are the seed state, the words, the blocks in order, the tagged block and the digest. -/
theorem taggedBlockLayout : Obligations.TaggedBlockLayout :=
  ⟨fun _ _ => rfl, fun blk j => words_getElem blk j.val j.isLt,
    fun m h k => ⟨mixBlocks_zero m h, mixBlocks_succ k m h⟩, fun _ => taggedBlock_layout,
    longHash_eq_endPartialLines, fun _ => longHash_of_whole_blocks⟩

end Sys2Proof.Machine
end

section
/-! SUPPORT. The host port and the `STATUS` fields of 10_state.md (R22 to R30): what a host read and a host write of a
register do, what a command can do to the state, and what a step that runs no command leaves alone, with the statements
about them. -/

namespace Sys2Proof.Machine

variable {s t : State}

/-! ### What a command can do -/

/-- The states in which a command that completes can end, before it clears `ERR`: each kind of write is open to the
commands that have it in the implicit writes of 30_encoding.md R88. -/
inductive CommandEffect (s : State) : Instr → State → Prop where
  | nothing : CommandEffect s .nop s
  | working {i : Instr} (v : Vector Word 12) : isMixer i → CommandEffect s i (s.withV v)
  | engine {i : Instr} (e : Engine) : writesEngine i → CommandEffect s i (s.withEngine e)
  | latch {i : Instr} (d : Digest) : writesLatch i → CommandEffect s i (s.withDigest d)
  | text (x : Vector Word 4) : CommandEffect s .dtohex { s with hex := x }
  | parse {i : Instr} (r : Option Digest) : isParse i → CommandEffect s i (tryParseState s r)
  | compare (b : Bool) : CommandEffect s .deq { s with eq := b }
  | hashCode (c : BitVec 32) : CommandEffect s .dhash { s with hcode := c }

/-- A command either completes, with one of its effects and `ERR` cleared, or raises an error and only sets `ERR`. -/
def CompletesOrRaises (i : Instr) (s t : State) : Prop :=
  (∃ u, CommandEffect s i u ∧ t = u.withErr 0) ∨ ∃ e : CmdError, t = s.withErr e.code

theorem CompletesOrRaises.of_complete {i : Instr} {u : State} (effect : CommandEffect s i u)
    (h : complete u = .next t) : CompletesOrRaises i s t :=
  .inl ⟨u, effect, (complete_eq_next.mp h).symm⟩

theorem CompletesOrRaises.of_onOperand {i : Instr} {operand : Except CmdError (List Byte)} {f : List Byte → State}
    (effect : ∀ m, CommandEffect s i (f m)) (h : onOperand operand s f = .next t) : CompletesOrRaises i s t := by
  obtain ⟨m, -, rfl⟩ | ⟨e, -, rfl⟩ := onOperand_next h
  · exact .inl ⟨_, effect m, rfl⟩
  · exact .inr ⟨e, rfl⟩

/-- Everything a command can do. -/
theorem exec_next {i : Instr} (h : exec i s = .next t) : CompletesOrRaises i s t := by
  cases i with
  | nop => exact .of_complete .nothing h
  | rotl reg sh =>
    obtain ⟨_, rfl⟩ | rfl := execRotl_next h
    · exact .inl ⟨_, .working _ rfl, rfl⟩
    · exact .inr ⟨_, rfl⟩
  | shortMix | shortEnd | mix | endPartial | endMix => exact .of_complete (.working _ rfl) h
  | short n | long n | hash128 n | hash64 n | hash32 n => exact .of_onOperand (fun _ => .latch _ rfl) h
  | init => exact .of_complete (.engine _ rfl) h
  | update n => exact .of_onOperand (fun _ => .engine _ rfl) h
  | final | dzero => exact .of_complete (.latch _ rfl) h
  | dtohex => exact .of_complete (.text _) h
  | dparse n =>
    obtain ⟨_, d, -, -, rfl⟩ | ⟨_, -, -, rfl⟩ | ⟨e, -, rfl⟩ := execDparse_next h
    · exact .inl ⟨_, .parse (some d) rfl, rfl⟩
    · exact .inr ⟨_, rfl⟩
    · exact .inr ⟨e, rfl⟩
  | dtryparse n =>
    obtain ⟨r, rfl, -⟩ | ⟨-, -, rfl⟩ := execDtryparse_next h
    · exact .inl ⟨_, .parse r rfl, rfl⟩
    · exact .inr ⟨_, rfl⟩
  | deq => exact .of_complete (.compare _) h
  | dhash => exact .of_complete (.hashCode _) h

@[simp] theorem tryParseState_parsed (s : State) (r : Option Digest) : (tryParseState s r).parsed = r.isSome := by
  cases r <;> rfl

@[simp] theorem tryParseState_eq (s : State) (r : Option Digest) : (tryParseState s r).eq = s.eq := by
  cases r <;> rfl

@[simp] theorem tryParseState_cmd (s : State) (r : Option Digest) : (tryParseState s r).cmd = s.cmd := by
  cases r <;> rfl

theorem CommandEffect.keeps_cmd {i : Instr} {u : State} (h : CommandEffect s i u) : u.cmd = s.cmd := by
  cases h <;> simp

theorem CommandEffect.eq_changed {i : Instr} {u : State} (h : CommandEffect s i u) (changed : u.eq ≠ s.eq) :
    i = .deq := by
  cases h with
  | compare b => rfl
  | nothing | working | engine | latch | text | parse | hashCode => simp at changed

theorem CommandEffect.parsed_changed {i : Instr} {u : State} (h : CommandEffect s i u)
    (changed : u.parsed ≠ s.parsed) : isParse i := by
  cases h with
  | parse r hi => exact hi
  | nothing | working | engine | latch | text | compare | hashCode => simp at changed

theorem exec_keeps_cmd {i : Instr} (h : exec i s = .next t) : t.cmd = s.cmd := by
  obtain ⟨u, effect, rfl⟩ | ⟨e, rfl⟩ := exec_next h
  · exact effect.keeps_cmd
  · rfl

theorem exec_err {i : Instr} (h : exec i s = .next t) : t.err = 0 ∨ ∃ e : CmdError, t = s.withErr e.code :=
  (exec_next h).imp_left fun ⟨_, _, ht⟩ => ht ▸ rfl

theorem exec_eq_changed {i : Instr} (h : exec i s = .next t) (changed : t.eq ≠ s.eq) : i = .deq ∧ t.err = 0 := by
  obtain ⟨u, effect, rfl⟩ | ⟨e, rfl⟩ := exec_next h
  · exact ⟨effect.eq_changed changed, rfl⟩
  · exact absurd rfl changed

theorem exec_parsed_changed {i : Instr} (h : exec i s = .next t) (changed : t.parsed ≠ s.parsed) :
    isParse i ∧ t.err = 0 := by
  obtain ⟨u, effect, rfl⟩ | ⟨e, rfl⟩ := exec_next h
  · exact ⟨effect.parsed_changed changed, rfl⟩
  · exact absurd rfl changed

/-- A `DPARSE` that completes has parsed its text. -/
theorem execDparse_parsed {n : Bool} (h : execDparse n s = .next t) (done : t.err = 0) : t.parsed = true := by
  obtain ⟨_, _, -, -, rfl⟩ | ⟨_, -, -, rfl⟩ | ⟨e, -, rfl⟩ := execDparse_next h
  · rfl
  · exact absurd done (code_ne_zero .format)
  · exact absurd done (code_ne_zero e)

/-- A `DTRYPARSE` that completes tells whether its text parses; a null reference has no text. -/
theorem execDtryparse_parsed {n : Bool} (h : execDtryparse n s = .next t) (done : t.err = 0) :
    t.parsed = true ↔ n = false ∧ (parseText s.spanBytes).isSome := by
  obtain ⟨_, rfl, ⟨rfl, rfl⟩ | ⟨rfl, -, rfl⟩⟩ | ⟨-, -, rfl⟩ := execDtryparse_next h
  · simp
  · simp
  · exact absurd done (code_ne_zero .outOfRange)

/-! ### What a step can do to the fields a host reads only -/

theorem nextCommand_eq_some {i : Instr} :
    s.nextCommand = some i ↔ ∃ w rest, s.pending = .writeReg 0x01 w :: rest ∧ decode w = .ok i := by
  unfold State.nextCommand
  split
  · next n w rest hp =>
    by_cases hn : n = cmdNumber
    · cases hd : decode w <;> simp_all [Except.toOption, cmdNumber]
    · simp_all [cmdNumber]
  · simp_all

/-- A step on a legal command word runs the command with the read-back stored. -/
theorem step_nextCommand {i : Instr} (h : s.nextCommand = some i) :
    ∃ w rest, step s = exec i { s with pending := rest, cmd := w } := by
  obtain ⟨w, rest, hp, hd⟩ := nextCommand_eq_some.mp h
  exact ⟨w, rest, by rw [step_action hp, act_cmd, runCommand_ok hd]⟩

/-- The two states agree in the stored fields that a host can read and cannot write. -/
structure SameReadOnly (s t : State) : Prop where
  err : t.err = s.err
  eq : t.eq = s.eq
  parsed : t.parsed = s.parsed
  hcode : t.hcode = s.hcode
  hex : t.hex = s.hex
  eng : t.eng = s.eng

theorem SameReadOnly.readReg (h : SameReadOnly s t) {q : Reg} (hq : q.readOnly) : t.readReg q = s.readReg q := by
  obtain ⟨herr, heq, hparsed, hhcode, hhex, heng⟩ := h
  cases q <;> simp_all [Reg.readOnly, State.readReg, State.statusWord]

/-- The actions still to come are none of these fields. -/
theorem SameReadOnly.of_pending {rest : List HostAction} (h : SameReadOnly { s with pending := rest } t) :
    SameReadOnly s t :=
  ⟨h.err, h.eq, h.parsed, h.hcode, h.hex, h.eng⟩

/-- A host write of any register keeps the fields a host reads only. -/
theorem hostWriteReg_sameReadOnly (s : State) (n : BitVec 8) (x : Word) : SameReadOnly s (s.hostWriteReg n x) := by
  obtain ⟨-, -, eng, err, eq, parsed, hex, hcode, -, -⟩ := hostWriteReg_frame s n x
  exact ⟨err, eq, parsed, hcode, hex, eng⟩

theorem hostWriteMsg_sameReadOnly (s : State) (a : Nat) (x : Byte) : SameReadOnly s (s.hostWriteMsg a x) := by
  unfold State.hostWriteMsg
  split <;> exact ⟨rfl, rfl, rfl, rfl, rfl, rfl⟩

/-- The four kinds of step: a legal command, an illegal command word, a reset, and any other host action or none, which
keeps the fields a host reads only. -/
theorem step_kinds (h : step s = .next t) :
    (∃ i w rest, s.nextCommand = some i ∧ s.pending = .writeReg 0x01 w :: rest ∧
      exec i { s with pending := rest, cmd := w } = .next t) ∨
    (∃ w rest, s.pending = .writeReg 0x01 w :: rest ∧ t = { s with pending := rest, cmd := w, err := 4 }) ∨
    s.nextIsReset ∨ SameReadOnly s t := by
  obtain ⟨-, rfl⟩ | ⟨w, i, rest, hp, hd, ht⟩ | ⟨w, e, rest, hp, -, rfl⟩ | ⟨n, x, rest, -, -, rfl⟩ |
    ⟨n, rest, -, rfl⟩ | ⟨a, x, rest, -, rfl⟩ | ⟨a, rest, -, rfl⟩ | ⟨rest, hp, -⟩ := step_cases h
  · exact .inr (.inr (.inr ⟨rfl, rfl, rfl, rfl, rfl, rfl⟩))
  · exact .inl ⟨i, w, rest, nextCommand_eq_some.mpr ⟨w, rest, hp, hd⟩, hp, ht⟩
  · exact .inr (.inl ⟨w, rest, hp, rfl⟩)
  · exact .inr (.inr (.inr (hostWriteReg_sameReadOnly _ n x).of_pending))
  · exact .inr (.inr (.inr ⟨rfl, rfl, rfl, rfl, rfl, rfl⟩))
  · exact .inr (.inr (.inr (hostWriteMsg_sameReadOnly _ a x).of_pending))
  · exact .inr (.inr (.inr ⟨rfl, rfl, rfl, rfl, rfl, rfl⟩))
  · exact .inr (.inr (.inl (by rw [State.nextIsReset, hp]; rfl)))

/-! ### Reading and writing registers by number -/

variable {n : BitVec 8} {r q : Reg} {x : Word} {rest : List HostAction}

theorem hostReadReg_of_some (h : regOf n = some r) : s.hostReadReg n = s.readReg r := by
  simp [State.hostReadReg, h]

theorem hostReadReg_of_none (h : regOf n = none) : s.hostReadReg n = 0 := by
  simp [State.hostReadReg, h]

theorem hostWriteReg_of_some (h : regOf n = some r) : s.hostWriteReg n x = s.writeReg x r := by
  simp [State.hostWriteReg, h]

theorem hostWriteReg_of_none (h : regOf n = none) : s.hostWriteReg n x = s := by
  simp [State.hostWriteReg, h]

theorem writeReg_of_readOnly (h : r.readOnly) : s.writeReg x r = s := by
  cases r <;> simp_all [Reg.readOnly, State.writeReg]

theorem readReg_writeReg_same (h : r.readWrite) : (s.writeReg x r).readReg r = x := by
  cases r with
  | v k | w k => exact setAt_same _ k x
  | seed1 | seed2 | srcAddr | srcLen | dig1 | dig2 | cmp1 | cmp2 => rfl
  | id | cmd | status | hcode | hex | h | elen | ecnt | ebuf => cases h

/-- A write of one register leaves what every other register reads as; only the indexed registers share a field. -/
theorem readReg_writeReg_other (h : q ≠ r) : (s.writeReg x r).readReg q = s.readReg q := by
  cases r with
  | v k =>
    cases q with
    | v j => exact setAt_other _ x fun same => h (same ▸ rfl)
    | _ => rfl
  | w k =>
    cases q with
    | w j => exact setAt_other _ x fun same => h (same ▸ rfl)
    | _ => rfl
  | _ => cases q <;> simp_all [State.writeReg, State.readReg, State.statusWord]

theorem writeReg_frame (s : State) (x : Word) (r : Reg) :
    let u := s.writeReg x r
    u.cfg = s.cfg ∧ u.msg = s.msg ∧ u.pending = s.pending ∧ u.readData = s.readData := by
  cases r <;> exact ⟨rfl, rfl, rfl, rfl⟩

theorem step_readReg (h : s.pending = .readReg n :: rest) :
    step s = .next { s with pending := rest, readData := s.hostReadReg n } := step_action h

/-- `CMD` is the one register whose write is more than a store. -/
theorem step_writeReg (h : s.pending = .writeReg n x :: rest) (notCmd : regOf n ≠ some .cmd) :
    step s = .next ({ s with pending := rest }.hostWriteReg n x) := by
  rw [step_action h, act_writeReg]
  rintro rfl
  exact notCmd rfl

/-- A write that the register map drops or that a read-only register ignores changes nothing. -/
theorem hostWriteReg_ignored (h : regOf n = none ∨ ∃ r, regOf n = some r ∧ r.readOnly) :
    s.hostWriteReg n x = s := by
  obtain h | ⟨r, h, hr⟩ := h
  · exact hostWriteReg_of_none h
  · rw [hostWriteReg_of_some h, writeReg_of_readOnly hr]

/-! ### What each register reads as -/

theorem statusWord_toNat_lt (s : State) : s.statusWord.toNat < 2 ^ 7 := by
  rw [State.statusWord, BitVec.toNat_setWidth_of_le (by decide)]
  exact BitVec.isLt _

/-- Bit `j` of `STATUS`, field by field from bit 0 up (R26). -/
theorem getLsbD_statusWord (s : State) (j : Nat) :
    s.statusWord.getLsbD j =
      if j < 4 then s.err.getLsbD j else if j = 4 then s.eq else if j = 5 then s.parsed
      else decide (j = 6) && s.eng.long := by
  simp only [State.statusWord, BitVec.getLsbD_setWidth, BitVec.getLsbD_append, BitVec.getLsbD_ofBool]
  grind

theorem statusWord_err (s : State) : s.statusWord.extractLsb' 0 4 = s.err := by
  ext j hj
  simp [getLsbD_statusWord, hj]

theorem statusWord_above (s : State) : s.statusWord.extractLsb' 7 57 = 0 := by
  apply BitVec.eq_of_getLsbD_eq
  intro j hj
  rw [BitVec.getLsbD_extractLsb', getLsbD_statusWord]
  simp [show ¬ 7 + j < 4 by omega, show 7 + j ≠ 4 by omega, show 7 + j ≠ 5 by omega, show 7 + j ≠ 6 by omega]

/-- Byte `j` of the buffer is byte `j mod 8` of `EBUF(j div 8)` (R42). -/
theorem byteOf_readReg_ebuf (s : State) (j : Fin 192) :
    byteOf (s.readReg (.ebuf ⟨j.val / 8, by omega⟩)) (j.val % 8) = s.eng.ebuf[j] := by
  have position : 8 * (j.val / 8) + j.val % 8 = j.val := Nat.div_add_mod ..
  have low : j.val % 8 < 8 := Nat.mod_lt _ (by decide)
  rw [State.readReg, byteOf_le64 _ low]
  simp [slice, List.getD_eq_getElem?_getD, position, low]

/-! ### The statements -/

/-- Settles O1: `ID` is computed from no field, and the host's write of it is one of a read-only register. -/
theorem hardwiredIdReadsAsSpooky : Obligations.HardwiredIdReadsAsSpooky := by
  intro s rest
  refine ⟨step_readReg, fun x hp => ?_, fun _ _ _ => rfl, ?_, ?_⟩
  · rw [step_writeReg hp (by decide), hostWriteReg_ignored (.inr ⟨.id, by decide, rfl⟩)]
  · rw [State.readReg]
    decide
  · rw [State.readReg]
    decide

/-- Settles O2: the step stores the word before it decodes it, and no effect of a command writes `CMD`. -/
theorem commandWriteStoresAndRuns : Obligations.CommandWriteStoresAndRuns := by
  intro s rest
  refine ⟨fun w i hp hd => ?_, fun w e hp hd => ?_, step_readReg, fun _ _ => exec_keeps_cmd⟩
  · rw [step_action hp, act_cmd, runCommand_ok hd]
  · rw [step_action hp, act_cmd, runCommand_error hd]

/-- Settles O4: the accesses go through the register map, and only commands and reset reach the read-only fields. -/
theorem hostRegisterAccessRules : Obligations.HostRegisterAccessRules := by
  intro s n rest
  refine ⟨fun x hp ignored => ?_, fun hp hn => ?_, fun r hp hn => ?_, ?_, ?_, statusWord_toNat_lt s,
    byteOf_readReg_ebuf s, fun _ => rfl, fun _ => ⟨rfl, rfl, rfl⟩,
    ⟨rfl, rfl, rfl, rfl, rfl, rfl, rfl, rfl, rfl, rfl⟩, fun x r hp hn hr => ?_, fun t noCommand noReset h => ?_⟩
  · have notCmd : regOf n ≠ some .cmd := by
      intro hn
      simp [hn, Reg.readOnly] at ignored
    rw [step_writeReg hp notCmd, hostWriteReg_ignored ignored]
  · rw [step_readReg hp, hostReadReg_of_none hn]
  · rw [step_readReg hp, hostReadReg_of_some hn]
  · exact BitVec.toNat_setWidth_of_le (by decide)
  · exact BitVec.toNat_setWidth_of_le (by decide)
  · have notCmd : regOf n ≠ some .cmd := by
      intro hc
      obtain rfl : r = .cmd := by simpa [hn] using hc
      cases hr
    obtain ⟨cfg, msg, pending, readData⟩ := writeReg_frame { s with pending := rest } x r
    refine ⟨_, step_writeReg hp notCmd, ?_⟩
    rw [hostWriteReg_of_some hn]
    refine ⟨readReg_writeReg_same hr, fun q hq => ?_, cfg, msg, pending, readData⟩
    rw [readReg_writeReg_other hq]
    cases q <;> rfl
  · obtain ⟨_, w, rest', -, hp, -⟩ | ⟨w, rest', hp, -⟩ | reset | kept := step_kinds h
    · exact absurd (by rw [hp]; rfl) (noCommand w)
    · exact absurd (by rw [hp]; rfl) (noCommand w)
    · exact absurd reset noReset
    · exact ⟨kept.err, fun _ => kept.readReg⟩

/-- Settles O5: the word read is `STATUS` bit by bit. -/
theorem statusReadComputesLong : Obligations.StatusReadComputesLong := by
  intro s rest hp
  refine ⟨s.statusWord, step_readReg hp, ?_, statusWord_err s, getLsbD_statusWord s 4, getLsbD_statusWord s 5,
    statusWord_above s⟩
  rw [getLsbD_statusWord]
  simp [Engine.long]

/-- Settles O6: a command completes with `ERR` cleared or only sets `ERR`, and an illegal word only sets `ERR`. -/
theorem commandClearsErrOrOnlySetsIt : Obligations.CommandClearsErrOrOnlySetsIt := by
  refine ⟨fun _ _ _ => exec_err, fun s t w rest hp h => ?_⟩
  rw [step_action hp, act_cmd] at h
  cases hd : decode w with
  | ok i =>
    rw [runCommand_ok hd] at h
    exact exec_err h
  | error e =>
    rw [runCommand_error hd] at h
    exact .inr ⟨.illegalCommand, (Host.Outcome.next.inj h).symm⟩

/-- Settles O7: of the four kinds of step only a command and reset reach `EQ`, and only one effect writes it. -/
theorem eqChangesOnlyWhenDeqCompletes : Obligations.EqChangesOnlyWhenDeqCompletes := by
  intro s t h changed
  obtain ⟨i, w, rest, hi, -, ht⟩ | ⟨w, rest, -, rfl⟩ | reset | kept := step_kinds h
  · obtain ⟨rfl, done⟩ := exec_eq_changed ht changed
    exact .inl ⟨hi, done⟩
  · exact absurd rfl changed
  · exact .inr reset
  · exact absurd kept.eq changed

/-- Settles O8: only a command reaches `PARSED` between resets, only one effect writes it, and that effect's value is
the result of the parse. -/
theorem parsedChangesOnlyWhenParseCompletes : Obligations.ParsedChangesOnlyWhenParseCompletes := by
  intro s t h noReset
  refine ⟨fun changed => ?_, fun n hn done => ?_, fun n hn done => ?_⟩
  · obtain ⟨i, w, rest, hi, -, ht⟩ | ⟨w, rest, -, rfl⟩ | reset | kept := step_kinds h
    · exact ⟨i, hi, exec_parsed_changed ht changed⟩
    · exact absurd rfl changed
    · exact absurd reset noReset
    · exact absurd kept.parsed changed
  · obtain ⟨w, rest, run⟩ := step_nextCommand hn
    exact execDparse_parsed (run.symm.trans h) done
  · obtain ⟨w, rest, run⟩ := step_nextCommand hn
    exact execDtryparse_parsed (s := { s with pending := rest, cmd := w }) (run.symm.trans h) done

end Sys2Proof.Machine
end

section
/-! SUPPORT. The message memory of 20_memory.md (R61 to R66): what a host byte access and a command do to it, and what a
command that reads it makes of its memory operand, with the statements about them. -/

namespace Sys2Proof.Machine

variable {s t : State} {a : Nat} {x : Byte} {rest : List HostAction}

/-! ### Host byte accesses -/

theorem step_writeMsg_inside (h : s.pending = .writeMsg a x :: rest) (inside : a < s.cfg.msgSize) :
    step s = .next { s with pending := rest, msg := Memory.write s.cfg s.msg a x } := by
  rw [step_action h, act, State.hostWriteMsg, if_pos inside]

theorem step_writeMsg_outside (h : s.pending = .writeMsg a x :: rest) (outside : s.cfg.msgSize ≤ a) :
    step s = .next { s with pending := rest } := by
  rw [step_action h, act, State.hostWriteMsg, if_neg (Nat.not_lt.mpr outside)]

theorem step_readMsg (h : s.pending = .readMsg a :: rest) :
    step s = .next { s with pending := rest,
                            readData := if a < s.cfg.msgSize then (s.msgByte a).setWidth 64 else 0 } := by
  rw [step_action h, act, State.hostReadMsg]
  split <;> rfl

@[simp] theorem tryParseState_msg (s : State) (r : Option Digest) : (tryParseState s r).msg = s.msg := by
  cases r <;> rfl

theorem CommandEffect.keeps_msg {i : Instr} {u : State} (h : CommandEffect s i u) : u.msg = s.msg := by
  cases h <;> simp

theorem exec_keeps_msg {i : Instr} (h : exec i s = .next t) : t.msg = s.msg := by
  obtain ⟨u, effect, rfl⟩ | ⟨e, rfl⟩ := exec_next h
  · exact effect.keeps_msg
  · rfl

/-- Settles O12: a host byte write is one write of the memory or nothing, and no effect of a command writes `MSG`. -/
theorem hostMessageByteAccess : Obligations.HostMessageByteAccess := by
  intro s a rest
  refine ⟨fun x hp inside ⟨sorted, _⟩ => ?_, fun _ => step_writeMsg_outside, step_readMsg,
    fun _ _ => exec_keeps_msg⟩
  exact ⟨_, step_writeMsg_inside hp inside, Memory.read_write_same sorted a x,
    fun _ hb => Memory.read_write_other a x hb, rfl⟩

/-! ### The commands that read the memory -/

/-- The same state with another span address and another message memory. -/
def State.withSpanSource (s : State) (a : Word) (m : Memory) : State := { s with srcAddr := a, msg := m }

/-- How every command that reads `MSG` uses its memory operand (R66): `outcome none` is the next state on a null
reference and `outcome (some d)` the one on a span whose bytes are `d`. The span check alone decides between this and
an error, and neither the span's address nor the memory enters in any other way. -/
structure ReadsSpan (f : Bool → Instr) (outcome : Option (List Byte) → State → State) : Prop where
  null (s : State) : exec (f true) s = .next (outcome none s)
  span {s : State} {d : List Byte} : spanOperand s = .ok d → exec (f false) s = .next (outcome (some d) s)
  error {s : State} {e : CmdError} : spanOperand s = .error e → exec (f false) s = raiseError e s
  source (o : Option (List Byte)) (s : State) (a : Word) (m : Memory) :
    outcome o (s.withSpanSource a m) = (outcome o s).withSpanSource a m
  noOutOfRange (d : List Byte) (s : State) : (outcome (some d) s).err ≠ CmdError.outOfRange.code

/-- What a hashing command and `UPDATE` do when `write d` is their effect for the message `d`: a null reference is the
empty message when `SRC_LEN` is 0 (R130, R163). -/
def messageOutcome (write : List Byte → State → State) : Option (List Byte) → State → State
  | some d, s => (write d s).withErr 0
  | none, s => if s.srcLen.toNat = 0 then (write [] s).withErr 0 else s.withErr CmdError.invalidArgument.code

/-- What `DPARSE` does (R193). -/
def dparseOutcome : Option (List Byte) → State → State
  | some d, s =>
    match parseText d with
    | some x => (s.withParse x).withErr 0
    | none => s.withErr CmdError.format.code
  | none, s => s.withErr CmdError.invalidArgument.code

/-- What `DTRYPARSE` does: a null reference is a text that does not parse (R194). -/
def dtryparseOutcome (o : Option (List Byte)) (s : State) : State := (tryParseState s (o.bind parseText)).withErr 0

/-- A command that runs on the message operand reads its span, when its effect does not look at the memory itself. -/
theorem readsSpan_of_messageOperand {f : Bool → Instr} (write : List Byte → State → State)
    (run : ∀ n s, exec (f n) s = onOperand (messageOperand n s) s fun d => write d s)
    (source : ∀ d s a m, write d (s.withSpanSource a m) = (write d s).withSpanSource a m) :
    ReadsSpan f (messageOutcome write) where
  null s := by
    rw [run, messageOutcome]
    split
    · next empty =>
      rw [messageOperand_true_zero empty]
      rfl
    · next nonempty =>
      rw [messageOperand_true_ne nonempty]
      rfl
  span h := by
    rw [run, messageOperand_false, h]
    rfl
  error h := by
    rw [run, messageOperand_false, h]
    rfl
  source o s a m := by
    cases o with
    | some d => exact congrArg (State.withErr · 0) (source d s a m)
    | none =>
      show (if s.srcLen.toNat = 0 then _ else _) = State.withSpanSource (if s.srcLen.toNat = 0 then _ else _) a m
      split
      · exact congrArg (State.withErr · 0) (source [] s a m)
      · rfl
  noOutOfRange _ _ := (code_ne_zero _).symm

theorem dparse_readsSpan : ReadsSpan .dparse dparseOutcome where
  null _ := rfl
  span {s d} h := by
    simp only [exec, execDparse, textOperand_false, h, dparseOutcome]
    cases parseText d <;> rfl
  error h := by simp only [exec, execDparse, textOperand_false, h]
  source o s a m := by
    cases o with
    | some d =>
      simp only [dparseOutcome]
      cases parseText d <;> rfl
    | none => rfl
  noOutOfRange d s := by
    simp only [dparseOutcome]
    cases parseText d <;> simp [CmdError.code]

theorem dtryparse_readsSpan : ReadsSpan .dtryparse dtryparseOutcome where
  null _ := rfl
  span h := by
    simp only [exec, execDtryparse, h]
    rfl
  error h := by
    simp only [exec, execDtryparse, h]
    rfl
  source o s a m := by
    simp only [dtryparseOutcome]
    cases o.bind parseText <;> rfl
  noOutOfRange _ _ := (code_ne_zero _).symm

/-- Every command that reads `MSG` reads it through its span operand alone. -/
theorem exists_readsSpan : ∀ f ∈ spanReaders, ∃ outcome, ReadsSpan f outcome := by
  simp only [spanReaders, oneShots, List.cons_append, List.nil_append, List.forall_mem_cons]
  refine ⟨?short, ?long, ?hash128, ?hash64, ?hash32, ?update, ⟨_, dparse_readsSpan⟩, ⟨_, dtryparse_readsSpan⟩, nofun⟩
  case short | long | hash128 | hash64 | hash32 | update =>
    exact ⟨_, readsSpan_of_messageOperand _ (fun _ _ => rfl) fun _ _ _ _ => rfl⟩

theorem spanBytes_of_srcLen_zero (h : s.srcLen = 0) : s.spanBytes = [] :=
  List.eq_nil_of_length_eq_zero (by simp [h])

/-- Settles O13: a reader's outcome on a null reference is blind to the source of the span, and a span reaches
its outcome only past the check. -/
theorem spanCheckGuardsEveryMessageRead : Obligations.SpanCheckGuardsEveryMessageRead := by
  intro s f hf
  obtain ⟨outcome, reads⟩ := exists_readsSpan f hf
  have outside (h : s.cfg.msgSize < s.srcAddr.toNat + s.srcLen.toNat) : exec (f false) s = .next { s with err := 2 } :=
    reads.error (spanOperand_of_not_inRange (Nat.not_le.mpr h))
  refine ⟨fun a m t h => ?_, outside, fun inside => ⟨spanOperand_of_inRange inside, fun t h => ?_⟩,
    fun empty inside => ?_, fun above => outside (Nat.lt_add_right _ above)⟩
  · obtain rfl : outcome none s = t := Host.Outcome.next.inj ((reads.null s).symm.trans h)
    exact (reads.null _).trans (congrArg Host.Outcome.next (reads.source none s a m))
  · obtain rfl : outcome (some s.spanBytes) s = t :=
      Host.Outcome.next.inj ((reads.span (spanOperand_of_inRange inside)).symm.trans h)
    exact reads.noOutOfRange _ s
  · rw [spanOperand_of_inRange (by simpa [State.spanInRange, empty] using inside), spanBytes_of_srcLen_zero empty]

end Sys2Proof.Machine
end

section
/-! SUPPORT. The opcode map and the pseudo-instruction of 30_encoding.md: the decoder against the match and mask columns
(R87, R88), and `ROTR` (R92), with the statements about them. -/

namespace Sys2Proof.Machine

variable {w : Word} {n : Nat}

/-! ### The match and mask columns by opcode -/

theorem getLsbD_plainUsed (j : Nat) : plainUsed.getLsbD j = decide (j < 8) := by
  rw [show plainUsed = (BitVec.allOnes 8).setWidth 64 by decide, BitVec.getLsbD_setWidth, BitVec.getLsbD_allOnes,
    ← Bool.decide_and, decide_eq_decide]
  omega

/-- Two words are equal when they agree in `OP` and outside it. -/
theorem word_eq_iff {x y : Word} : x = y ↔ opField x = opField y ∧ x &&& ~~~plainUsed = y &&& ~~~plainUsed := by
  refine ⟨fun h => h ▸ ⟨rfl, rfl⟩, fun ⟨low, high⟩ => BitVec.eq_of_getLsbD_eq fun j hj => ?_⟩
  by_cases inOp : j < 8
  · simpa [opField, inOp] using congrArg (·.getLsbD j) low
  · have bit := congrArg (·.getLsbD j) high
    simp only [BitVec.getLsbD_and, BitVec.getLsbD_not, getLsbD_plainUsed] at bit
    simpa [inOp, hj] using bit

/-- Every row compares the whole of `OP` and gives no bit outside it a value but 0. -/
theorem opcodeRows_fix_opcode :
    ∀ row ∈ opcodeRows, opField row.mask = BitVec.allOnes 8 ∧ row.fixed &&& ~~~plainUsed = 0 := by decide

theorem opcodeRows_opcodes : (opcodeRows.map fun row => (opField row.fixed).toNat) =
    [0x00, 0x10, 0x11, 0x12, 0x13, 0x14, 0x15, 0x18, 0x19, 0x1A, 0x1B, 0x1C, 0x20, 0x21, 0x22, 0x30, 0x31, 0x32,
      0x33, 0x34, 0x35] := by decide

/-- A word matches a row when it has the row's opcode and none of the bits the row wants to be 0. -/
theorem hits_iff {row : OpcodeRow} (hrow : row ∈ opcodeRows) (w : Word) :
    row.hits w ↔ opField row.fixed = opField w ∧ w &&& (row.mask &&& ~~~plainUsed) = 0 := by
  obtain ⟨mask, fixed⟩ := opcodeRows_fix_opcode row hrow
  have opcode : opField (w &&& row.mask) = opField w := by
    rw [opField, BitVec.extractLsb'_and, ← opField, ← opField, mask, BitVec.and_allOnes]
  rw [OpcodeRow.hits, word_eq_iff, opcode, fixed, BitVec.and_assoc, eq_comm (a := opField w)]

/-- The bits outside `OP` that the rows with opcode `op` want to be 0, one mask for each such row (R80, R88). -/
def reservedMasks (op : BitVec 8) : List Word :=
  (opcodeRows.filter fun row => opField row.fixed = op).map fun row => row.mask &&& ~~~plainUsed

theorem exists_hits_iff (w : Word) :
    (∃ row ∈ opcodeRows, row.hits w) ↔ ∃ m ∈ reservedMasks (opField w), w &&& m = 0 := by
  simp only [reservedMasks, List.mem_map, List.mem_filter, decide_eq_true_eq]
  constructor
  · rintro ⟨row, hrow, h⟩
    obtain ⟨opcode, reserved⟩ := (hits_iff hrow w).mp h
    exact ⟨_, ⟨row, ⟨hrow, opcode⟩, rfl⟩, reserved⟩
  · rintro ⟨_, ⟨row, ⟨hrow, opcode⟩, rfl⟩, reserved⟩
    exact ⟨row, hrow, (hits_iff hrow w).mpr ⟨opcode, reserved⟩⟩

theorem legalWord_iff (w : Word) :
    legalWord w ↔
      (∃ m ∈ reservedMasks (opField w), w &&& m = 0) ∧ (opField w = 0x10 → regLegal (regField w)) :=
  and_congr_left' (exists_hits_iff w)

theorem opcode_of_legalWord (legal : legalWord w) :
    (opField w).toNat ∈ opcodeRows.map fun row => (opField row.fixed).toNat := by
  obtain ⟨⟨row, hrow, hits⟩, _⟩ := legal
  exact List.mem_map.mpr ⟨row, hrow, congrArg BitVec.toNat ((hits_iff hrow w).mp hits).1⟩

/-! ### The decoder against the map -/

theorem plainForm_accepts (w : Word) (i : Instr) : (∃ j, plainForm w i = .ok j) ↔ w &&& ~~~plainUsed = 0 := by
  by_cases h : w &&& ~~~plainUsed = 0#64 <;> simp [plainForm, h]

theorem nullForm_accepts (w : Word) (f : Bool → Instr) : (∃ j, nullForm w f = .ok j) ↔ w &&& ~~~nullUsed = 0 := by
  by_cases h : w &&& ~~~nullUsed = 0#64 <;> simp [nullForm, h]

theorem rotlForm_accepts (w : Word) :
    (∃ j, rotlForm w = .ok j) ↔ w &&& ~~~rotlUsed = 0 ∧ regLegal (regField w) := by
  by_cases h : w &&& ~~~rotlUsed = 0#64
  · by_cases hr : regLegal (regField w) <;> simp [rotlForm, h, hr]
  · simp [rotlForm, h]

theorem opField_eq_ofNat (h : (opField w).toNat = n) : opField w = BitVec.ofNat 8 n := by
  rw [← h, BitVec.ofNat_toNat, BitVec.setWidth_eq]

/-- A form that checks reserved bits only accepts the legal words of an opcode whose one row reserves the same bits. -/
theorem form_accepts_iff_legalWord {form : Except DecodeError Instr} {m : Word}
    (accepts : (∃ j, form = .ok j) ↔ w &&& m = 0) (opcode : (opField w).toNat = n)
    (row : reservedMasks (BitVec.ofNat 8 n) = [m]) (notRotl : BitVec.ofNat 8 n ≠ 0x10#8) :
    (∃ j, form = .ok j) ↔ legalWord w := by
  rw [accepts, legalWord_iff, opField_eq_ofNat opcode, row]
  simp [notRotl]

theorem rotlForm_accepts_iff_legalWord (opcode : (opField w).toNat = 0x10) :
    (∃ j, rotlForm w = .ok j) ↔ legalWord w := by
  rw [rotlForm_accepts, legalWord_iff, opField_eq_ofNat opcode, show reservedMasks _ = [~~~rotlUsed] by decide]
  simp

/-- The decoder accepts exactly the legal words. The cases are its arms in order: `ROTL`, an opcode outside the map, the
commands that use `N` (`SHORT` to `HASH32`, `UPDATE`, `DPARSE`, `DTRYPARSE`), and the commands with no field. -/
theorem decode_accepts_iff (w : Word) : (∃ i, decode w = .ok i) ↔ legalWord w := by
  unfold decode
  split
  case h_2 opcode => exact rotlForm_accepts_iff_legalWord opcode
  case h_22 =>
    refine iff_of_false nofun fun legal => ?_
    have listed := opcode_of_legalWord legal
    rw [opcodeRows_opcodes] at listed
    simp_all
  case h_8 opcode | h_9 opcode | h_10 opcode | h_11 opcode | h_12 opcode | h_14 opcode | h_18 opcode | h_19 opcode =>
    exact form_accepts_iff_legalWord (nullForm_accepts w _) opcode (by decide) (by decide)
  all_goals
    next opcode => exact form_accepts_iff_legalWord (plainForm_accepts w _) opcode (by decide) (by decide)

/-- Settles O19: each arm of the decoder reserves the bits its row of the map reserves, and a word it rejects takes the
step of an illegal word. -/
theorem legalWordsAreExactlyTheTable : Obligations.LegalWordsAreExactlyTheTable := by
  intro w
  refine ⟨decode_accepts_iff w, fun illegal s rest hp => ?_⟩
  cases hd : decode w with
  | ok i => exact absurd ((decode_accepts_iff w).mp ⟨i, hd⟩) illegal
  | error e => rw [step_action hp, act_cmd, runCommand_error hd]

/-! ### `ROTR` -/

/-- Rotating left by the rest of the word rotates right. -/
theorem rotl64_sub_eq_rotateRight (x : Word) {k : Nat} (h : k < 64) :
    rotl64 x ((64 - k) % 64) = x.rotateRight k := by
  refine BitVec.eq_of_getLsbD_eq fun i hi => ?_
  rw [getLsbD_rotl64 _ _ hi, BitVec.getLsbD_rotateRight, Nat.mod_eq_of_lt h]
  by_cases low : i < 64 - k
  · rw [show (i + (64 - (64 - k) % 64 % 64)) % 64 = k + i by omega]
    simp [low]
  · rw [show (i + (64 - (64 - k) % 64 % 64)) % 64 = i - (64 - k) by omega]
    simp [low, hi]

/-- `ROTL` of a register that exists writes that register and clears `ERR` (R101). -/
theorem exec_rotl (r : Fin 12) (sh : BitVec 6) (s : State) :
    exec (.rotl (BitVec.ofNat 4 r.val) sh) s =
      .next ((s.withV (setAt s.v r (rotl64 s.v[r] sh.toNat))).withErr 0) := by
  have number : (BitVec.ofNat 4 r.val).toNat = r.val := Nat.mod_eq_of_lt (by omega)
  simp only [exec, execRotl, number, r.isLt, dif_pos]
  rfl

/-- Settles O22: the expansion is `ROTL` by the rest of the word. -/
theorem rotrRotatesRight : Obligations.RotrRotatesRight := by
  intro r k s
  refine ⟨rfl, rfl, _, exec_rotl r _ s, rfl, ?_, fun j hj => setAt_other _ _ hj⟩
  have amount : (BitVec.ofNat 6 ((64 - k.toNat) % 64)).toNat = (64 - k.toNat) % 64 :=
    Nat.mod_eq_of_lt (Nat.mod_lt _ (by decide))
  rw [State.withErr_v, State.withV_v, setAt_same, amount, rotl64_sub_eq_rotateRight _ k.isLt]

end Sys2Proof.Machine
end

section
/-! SUPPORT. The words of a command without fields (30_encoding.md R87, R88), and the engine commands `INIT` and `FINAL`
of 42_engine.md (R161, R168, R169), with the statements about them. -/

namespace Sys2Proof.Machine

variable {op : BitVec 8}

/-! ### The illegal words of an opcode -/

/-- A set that holds every legal word of an opcode leaves only words that raise `IllegalCommand`. -/
theorem illegalBeside_of_legalWord {legal : Word → Prop} (covers : ∀ w, opField w = op → legalWord w → legal w) :
    IllegalBeside op legal := by
  intro w s opcode outside
  cases hd : decode w with
  | ok i => exact absurd (covers w opcode ((decode_accepts_iff w).mp ⟨i, hd⟩)) outside
  | error e => exact runCommand_error hd s

/-- An opcode whose one row reserves every bit outside `OP` has one legal word. -/
theorem illegalBeside_plain {x : Word} (opcode : opField x = op) (high : x &&& ~~~plainUsed = 0)
    (row : reservedMasks op = [~~~plainUsed]) : IllegalBeside op (· = x) := by
  refine illegalBeside_of_legalWord fun w hw legal => word_eq_iff.mpr ⟨hw.trans opcode.symm, ?_⟩
  obtain ⟨m, hm, reserved⟩ := ((legalWord_iff w).mp legal).1
  rw [hw, row, List.mem_singleton] at hm
  rw [high, ← hm, reserved]

/-! ### `INIT` -/

/-- `INIT` writes the engine and clears `ERR` (R161). -/
theorem exec_init (s : State) :
    exec .init s = .next ((s.withEngine (Engine.init s.seed1 s.seed2)).withErr 0) := rfl

/-- Behind the two seeds `INIT` writes ten zeros. -/
theorem Engine.init_h (s1 s2 : Word) : (Engine.init s1 s2).h = #v[s1, s2] ++ Vector.replicate 10 (0 : Word) := rfl

theorem Engine.init_h_zero (s1 s2 : Word) {j : Fin 12} (hj : 2 ≤ j.val) : (Engine.init s1 s2).h[j] = 0 := by
  rw [Engine.init_h, Fin.getElem_fin, Vector.getElem_append_right _ hj, Vector.getElem_replicate]

theorem Engine.init_ebuf (s1 s2 : Word) (j : Fin 192) : (Engine.init s1 s2).ebuf[j] = 0 :=
  Vector.getElem_replicate j.isLt

/-- Settles O34: the opcode has one legal word, and the engine written is `Engine.init` of the seeds. -/
theorem initStoresSeedsAndClears : Obligations.InitStoresSeedsAndClears :=
  ⟨⟨by decide, by decide, rfl⟩, illegalBeside_plain (by decide) (by decide) (by decide), fun s =>
    ⟨_, exec_init s, rfl, rfl, rfl, fun _ => Engine.init_h_zero _ _, rfl, rfl, Engine.init_ebuf _ _, rfl⟩⟩

/-! ### `FINAL` -/

/-- `FINAL` writes the latch and clears `ERR` (R168). -/
theorem exec_final (s : State) : exec .final s = .next ((s.withDigest s.eng.final).withErr 0) := rfl

/-- The digest of `FINAL` depends on the engine alone. -/
theorem exec_final_of_eng_eq {s u : State} (same : u.eng = s.eng) :
    exec .final u = .next ((u.withDigest s.eng.final).withErr 0) := same ▸ exec_final u

/-- Settles O38: `FINAL` reads the engine alone and does not write it (R169), so any later `FINAL` on the same engine
writes the same digest, the second one over itself. -/
theorem finalIsNonDestructive : Obligations.FinalIsNonDestructive := by
  intro s
  refine ⟨_, exec_final s, rfl, ?_, fun _ => exec_final_of_eng_eq⟩
  have kept : ((s.withDigest s.eng.final).withErr 0).eng = s.eng := by simp
  exact exec_final_of_eng_eq kept

end Sys2Proof.Machine
end

section
/-! SUPPORT. The commands of the digest type (43_digest.md R190, R191, R193 to R196): the words of an opcode that uses
`N`, the texts that never parse, and the characters of the text form, with the statements about the commands. -/

namespace Sys2Proof.Machine

variable {s t : State} {w : Word} {text : List Byte} {b : Byte} {d : Digest}

/-! ### The illegal words of an opcode that uses `N` -/

/-- Outside `OP` a word with nothing outside `OP` and `N` holds `N` alone. -/
theorem above_opField_of_nullUsed (reserved : w &&& ~~~nullUsed = 0) :
    w &&& ~~~plainUsed = 0 ∨ w &&& ~~~plainUsed = 0x100 := by
  have bits : ~~~plainUsed = ~~~nullUsed ||| BitVec.twoPow 64 8 := by decide
  rw [bits, BitVec.and_or_distrib_left, reserved, BitVec.and_twoPow]
  cases w.getLsbD 8
  · exact .inl rfl
  · exact .inr rfl

/-- An opcode whose one row reserves every bit outside `OP` and `N` has two legal words. -/
theorem illegalBeside_null {op : BitVec 8} {x y : Word} (opcodes : opField x = op ∧ opField y = op)
    (high : x &&& ~~~plainUsed = 0 ∧ y &&& ~~~plainUsed = 0x100) (row : reservedMasks op = [~~~nullUsed]) :
    IllegalBeside op fun w => w = x ∨ w = y := by
  refine illegalBeside_of_legalWord fun w hw legal => ?_
  obtain ⟨m, hm, reserved⟩ := ((legalWord_iff w).mp legal).1
  rw [hw, row, List.mem_singleton] at hm
  refine (above_opField_of_nullUsed (hm ▸ reserved)).imp (fun clear => ?_) fun set => ?_
  · exact word_eq_iff.mpr ⟨hw.trans opcodes.1.symm, clear.trans high.1.symm⟩
  · exact word_eq_iff.mpr ⟨hw.trans opcodes.2.symm, set.trans high.2.symm⟩

/-! ### Texts that never parse -/

theorem skipSpace_eq_nil (blank : ∀ b ∈ text, isSpace b) : skipSpace text = [] := by
  induction text with
  | nil => rfl
  | cons b text ih =>
    obtain ⟨first, others⟩ := List.forall_mem_cons.mp blank
    rw [skipSpace, if_pos first, ih others]

/-- A text without digits does not parse. -/
theorem parseText_blank (blank : ∀ b ∈ text, isSpace b) : parseText text = none := by
  rw [parseText, skipSpace_eq_nil blank]
  rfl

theorem mem_skipSpace (visible : isSpace b = false) (h : b ∈ text) : b ∈ skipSpace text := by
  induction text with
  | nil => exact h
  | cons c text ih =>
    rw [skipSpace]
    split
    · next space =>
      refine ih ((List.mem_cons.mp h).resolve_left fun same => ?_)
      rw [← same, visible] at space
      cases space
    · exact h

/-- The marker is `0` and one of the letters `x` and `X`, so every other byte but a digit stays. -/
theorem mem_of_dropMarker {rest : List Byte} (noDigit : digitValue b = none) (noLetter : b ≠ 0x78 ∧ b ≠ 0x58)
    (h : b ∈ text) (dropped : dropMarker text = some rest) : b ∈ rest := by
  unfold dropMarker at dropped
  split at dropped
  · next z x tail =>
    split at dropped
    · next marker =>
      have notZero : b ≠ z := fun same => by
        rw [same, marker.1] at noDigit
        exact absurd noDigit (by decide)
      have notLetter : b ≠ x := fun same => (same ▸ marker.2).elim noLetter.1 noLetter.2
      have inTail : b ∈ tail := by simpa [notZero, notLetter] using h
      split at dropped
      · cases inTail
      · split at dropped
        · exact Option.some.inj dropped ▸ inTail
        · cases dropped
    · exact Option.some.inj dropped ▸ h
  · exact Option.some.inj dropped ▸ h

theorem digitsOf_eq_none (visible : isSpace b = false) (noDigit : digitValue b = none) (h : b ∈ text) :
    digitsOf text = none := by
  induction text with
  | nil => cases h
  | cons c text ih =>
    rw [digitsOf]
    obtain rfl | later := List.mem_cons.mp h
    · simp [visible, noDigit]
    · simp [ih later]

/-- A text with a byte that is neither whitespace nor a digit nor a letter of the marker does not parse (R192). -/
theorem parseText_of_foreign_byte (visible : isSpace b = false) (noDigit : digitValue b = none)
    (noLetter : b ≠ 0x78 ∧ b ≠ 0x58) (h : b ∈ text) : parseText text = none := by
  have fails : (dropMarker (skipSpace text)).bind digitsOf = none := by
    cases dropped : dropMarker (skipSpace text) with
    | none => rfl
    | some rest =>
      exact digitsOf_eq_none visible noDigit (mem_of_dropMarker noDigit noLetter (mem_skipSpace visible h) dropped)
  rw [parseText, fails]

/-! ### Characters of the text form -/

theorem hexDigit_toNat (nib : BitVec 4) :
    (hexDigit nib).toNat = if nib.toNat < 10 then 0x30 + nib.toNat else 0x41 + (nib.toNat - 10) := by
  revert nib
  decide

/-- Character `8 * k + j` of the text is byte `j` of `HEX k` (R191). -/
theorem byteOf_hexWords (d : Digest) (k : Fin 4) (j : Fin 8) :
    byteOf (hexWords d)[k] j.val = hexDigit ((d.1 ++ d.2).extractLsb' (124 - 4 * (8 * k.val + j.val)) 4) := by
  have position : 8 * k.val + j.val < 32 := by omega
  simp only [hexWords, Fin.getElem_fin, Vector.getElem_ofFn, byteOf_le64 _ j.isLt]
  simp [slice, hexText, List.getD_eq_getElem?_getD, position]

/-! ### `DPARSE` and `DTRYPARSE` -/

/-- A span outside the memory is the same error of every command that reads one (R66). -/
theorem ReadsSpan.outside {f : Bool → Instr} {outcome : Option (List Byte) → State → State}
    (reads : ReadsSpan f outcome) (h : s.cfg.msgSize < s.srcAddr.toNat + s.srcLen.toNat) :
    exec (f false) s = .next (s.withErr 2) :=
  reads.error (spanOperand_of_not_inRange (Nat.not_le.mpr h))

theorem exec_dparse_malformed (inside : s.spanInRange) (fails : parseText s.spanBytes = none) :
    exec (.dparse false) s = .next (s.withErr 3) := by
  rw [dparse_readsSpan.span (spanOperand_of_inRange inside), dparseOutcome, fails]
  rfl

theorem exec_dparse_value (inside : s.spanInRange) (value : parseText s.spanBytes = some d) :
    exec (.dparse false) s = .next ((s.withParse d).withErr 0) := by
  rw [dparse_readsSpan.span (spanOperand_of_inRange inside), dparseOutcome, value]

theorem exec_dtryparse_inside (inside : s.spanInRange) :
    exec (.dtryparse false) s = .next ((tryParseState s (parseText s.spanBytes)).withErr 0) :=
  dtryparse_readsSpan.span (spanOperand_of_inRange inside)

/-- A `DTRYPARSE` that completes without a value leaves `Zero` in the latch. -/
theorem exec_dtryparse_failure {n : Bool} (h : exec (.dtryparse n) s = .next t) (done : t.err = 0)
    (failed : t.parsed = false) : t.dig1 = 0 ∧ t.dig2 = 0 := by
  obtain ⟨_ | d, rfl, -⟩ | ⟨-, -, rfl⟩ := execDtryparse_next h
  · exact ⟨rfl, rfl⟩
  · cases failed
  · exact absurd done (code_ne_zero .outOfRange)

/-! ### The statements -/

/-- Settles O44: `Zero` is written whatever the state, and a `DTRYPARSE` without a value writes the same. -/
theorem dzeroLoadsZero : Obligations.DzeroLoadsZero :=
  ⟨⟨by decide, by decide, rfl⟩, illegalBeside_plain (by decide) (by decide) (by decide), fun _ => rfl,
    fun _ _ _ => exec_dtryparse_failure⟩

/-- Settles O45: each byte of `HEX` is a digit of the text, and the worked example is one evaluation. -/
theorem dtohexWritesTheText : Obligations.DtohexWritesTheText := by
  refine ⟨⟨by decide, by decide, rfl⟩, illegalBeside_plain (by decide) (by decide) (by decide), fun s => ?_, by decide⟩
  refine ⟨_, rfl, rfl, fun k j => ?_⟩
  exact (congrArg BitVec.toNat (byteOf_hexWords (s.dig1, s.dig2) k j)).trans (hexDigit_toNat _)

/-- Settles O47: the outcome follows the span check and the parser; a text of whitespace has no digit, and NUL is no
byte of the grammar. -/
theorem dparseResults : Obligations.DparseResults := by
  refine ⟨⟨by decide, by decide, rfl⟩, ⟨by decide, by decide, rfl⟩,
    illegalBeside_null (by decide) (by decide) (by decide), fun s => ?_, fun _ => parseText_blank,
    fun _ => parseText_of_foreign_byte (by decide) (by decide) (by decide), by decide⟩
  exact ⟨dparse_readsSpan.null s, dparse_readsSpan.outside, fun inside =>
    ⟨exec_dparse_malformed inside, fun _ => exec_dparse_value inside⟩⟩

/-- Settles O48: past the span check every outcome completes, with the parser's value or with `Zero`. -/
theorem dtryparseResults : Obligations.DtryparseResults := by
  refine ⟨⟨by decide, by decide, rfl⟩, ⟨by decide, by decide, rfl⟩,
    illegalBeside_null (by decide) (by decide) (by decide), fun s => ?_, by decide, by decide⟩
  refine ⟨dtryparse_readsSpan.null s, dtryparse_readsSpan.outside, fun inside => ⟨fun fails => ?_, fun d value => ?_⟩⟩
  · rw [exec_dtryparse_inside inside, State.spanBytes, fails]
    rfl
  · rw [exec_dtryparse_inside inside, State.spanBytes, value]
    rfl

/-- Settles O49: `EQ` decides the equality of both halves, and the code is the low half of `DIG1` alone. -/
theorem deqAndDhashResults : Obligations.DeqAndDhashResults := by
  refine ⟨⟨by decide, by decide, rfl⟩, illegalBeside_plain (by decide) (by decide) (by decide),
    ⟨by decide, by decide, rfl⟩, illegalBeside_plain (by decide) (by decide) (by decide),
    fun s => ⟨_, rfl, rfl, decide_eq_true_iff⟩, fun s => ⟨_, rfl, rfl, ?_, ?_⟩, fun s t u same h => ?_⟩
  · exact BitVec.extractLsb'_toNat ..
  · exact (BitVec.toNat_setWidth_of_le (by decide)).trans (BitVec.extractLsb'_toNat ..)
  · obtain rfl := Host.Outcome.next.inj h
    exact ⟨_, rfl, congrArg (·.extractLsb' 0 32) (congrArg Prod.fst same).symm⟩

end Sys2Proof.Machine
end

section
/-! SUPPORT. The command `NOP` of 44_control.md (R220), with the statement about it. -/

namespace Sys2Proof.Machine

theorem decode_zero : decode 0 = .ok .nop := by decide

/-- `NOP` clears `ERR` (R220). -/
theorem exec_nop (s : State) : exec .nop s = .next (s.withErr 0) := rfl

/-- Settles O23: the one row of opcode 0 reserves every other bit, and a write of the word runs `NOP` past the `CMD`
read-back (R25). -/
theorem nopOnlyClearsErr : Obligations.NopOnlyClearsErr := by
  refine ⟨⟨by decide, decode_zero, rfl⟩, illegalBeside_plain (by decide) (by decide) (by decide), exec_nop, fun s => ?_⟩
  rw [runCommand_ok decode_zero, exec_nop, State.withErr]

end Sys2Proof.Machine
end

section
/-! SUPPORT. The errors of 60_exceptions.md (R231 to R236): what makes a command raise each of them, in both directions,
with the statements about the errors. -/

namespace Sys2Proof.Machine

variable {s t : State} {i : Instr} {e : CmdError}

/-! ### The null message -/

theorem messageOperand_null (h : s.srcLen = 0) : messageOperand true s = .ok [] :=
  messageOperand_true_zero (congrArg BitVec.toNat h)

theorem messageOperand_null_error (h : s.srcLen ≠ 0) : messageOperand true s = .error .invalidArgument :=
  messageOperand_true_ne fun zero => h (BitVec.eq_of_toNat_eq zero)

/-! ### What raises each error -/

/-- What makes the command `i` raise the error `e` in the state `s`: a null reference with a length or of a text
(R232), a span outside the memory (R233), a text that does not parse (R234), or a register that does not exist (R235). -/
def ErrorCause (s : State) (i : Instr) : CmdError → Prop
  | .invalidArgument => i = .dparse true ∨ (s.srcLen ≠ 0 ∧ ∃ f ∈ oneShots ++ [.update], i = f true)
  | .outOfRange => ¬ s.spanInRange ∧ ∃ f ∈ spanReaders, i = f false
  | .format => i = .dparse false ∧ s.spanInRange ∧ parseText s.spanBytes = none
  | .illegalCommand => ∃ reg sh, i = .rotl reg sh ∧ ¬ reg.toNat < 12

theorem spanReaders_eq_append : spanReaders = (oneShots ++ [.update]) ++ [.dparse, .dtryparse] := rfl

theorem mem_spanReaders_of_message {f : Bool → Instr} (hf : f ∈ oneShots ++ [.update]) : f ∈ spanReaders :=
  spanReaders_eq_append ▸ List.mem_append_left _ hf

/-- A hashing command and `UPDATE` run on their message operand (R130, R163). -/
theorem exec_eq_onOperand : ∀ f ∈ oneShots ++ [.update], ∃ write : State → List Byte → State,
    ∀ n s, exec (f n) s = onOperand (messageOperand n s) s (write s) := by
  simp only [oneShots, List.cons_append, List.nil_append, List.forall_mem_cons]
  refine ⟨?short, ?long, ?hash128, ?hash64, ?hash32, ?update, nofun⟩
  case short | long | hash128 | hash64 | hash32 | update => exact ⟨_, fun _ _ => rfl⟩

/-- Every cause raises its error, and nothing but `ERR` changes (R230). -/
theorem ErrorCause.raises (cause : ErrorCause s i e) : exec i s = .next (s.withErr e.code) := by
  cases e with
  | invalidArgument =>
    obtain rfl | ⟨nonempty, f, hf, rfl⟩ := cause
    · exact dparse_readsSpan.null s
    · obtain ⟨write, run⟩ := exec_eq_onOperand f hf
      rw [run, messageOperand_null_error nonempty, onOperand, raiseError]
  | outOfRange =>
    obtain ⟨outside, f, hf, rfl⟩ := cause
    obtain ⟨_, reads⟩ := exists_readsSpan f hf
    exact reads.outside (Nat.lt_of_not_le outside)
  | format =>
    obtain ⟨rfl, inside, fails⟩ := cause
    exact exec_dparse_malformed inside fails
  | illegalCommand =>
    obtain ⟨reg, sh, rfl, absent⟩ := cause
    exact dif_neg absent

theorem err_of_complete (h : complete s = .next t) : t.err ≠ e.code :=
  complete_eq_next.mp h ▸ (code_ne_zero e).symm

theorem error_of_withErr {e' : CmdError} (raised : (s.withErr e'.code).err = e.code) : e' = e := code_injective raised

theorem errorCause_of_span {f : Bool → Instr} (hf : f ∈ spanReaders) (h : spanOperand s = .error e) :
    ErrorCause s (f false) e := by
  by_cases inside : s.spanInRange
  · rw [spanOperand_of_inRange inside] at h
    cases h
  · rw [spanOperand_of_not_inRange inside] at h
    obtain rfl := Except.error.inj h
    exact ⟨inside, f, hf, rfl⟩

theorem errorCause_of_message {f : Bool → Instr} {n : Bool} (hf : f ∈ oneShots ++ [.update])
    (h : exec (f n) s = .next t) (raised : t.err = e.code) : ErrorCause s (f n) e := by
  obtain ⟨write, run⟩ := exec_eq_onOperand f hf
  obtain ⟨_, -, rfl⟩ | ⟨e', operand, rfl⟩ := onOperand_next ((run n s).symm.trans h)
  · exact absurd raised.symm (code_ne_zero e)
  · obtain rfl := error_of_withErr raised
    cases n with
    | false => exact errorCause_of_span (mem_spanReaders_of_message hf) operand
    | true =>
      by_cases empty : s.srcLen = 0
      · rw [messageOperand_null empty] at operand
        cases operand
      · rw [messageOperand_null_error empty] at operand
        obtain rfl := Except.error.inj operand
        exact .inr ⟨empty, f, hf, rfl⟩

theorem errorCause_of_rotl {reg : BitVec 4} {sh : BitVec 6} (h : exec (.rotl reg sh) s = .next t)
    (raised : t.err = e.code) : ErrorCause s (.rotl reg sh) e := by
  by_cases present : reg.toNat < 12
  · exact absurd raised (err_of_complete ((dif_pos present).symm.trans h))
  · obtain rfl := raiseError_eq_next.mp ((dif_neg present).symm.trans h)
    obtain rfl := error_of_withErr raised
    exact ⟨reg, sh, rfl, present⟩

theorem errorCause_of_dparse {n : Bool} (h : exec (.dparse n) s = .next t) (raised : t.err = e.code) :
    ErrorCause s (.dparse n) e := by
  obtain ⟨_, _, -, -, rfl⟩ | ⟨x, text, fails, rfl⟩ | ⟨e', operand, rfl⟩ := execDparse_next h
  · exact absurd raised.symm (code_ne_zero e)
  · obtain rfl := error_of_withErr raised
    cases n with
    | false =>
      obtain ⟨inside, rfl⟩ := spanOperand_ok text
      exact ⟨rfl, inside, fails⟩
    | true => cases text
  · obtain rfl := error_of_withErr raised
    cases n with
    | false => exact errorCause_of_span (by simp [spanReaders]) operand
    | true =>
      obtain rfl := Except.error.inj operand
      exact .inl rfl

theorem errorCause_of_dtryparse {n : Bool} (h : exec (.dtryparse n) s = .next t) (raised : t.err = e.code) :
    ErrorCause s (.dtryparse n) e := by
  obtain ⟨_, rfl, -⟩ | ⟨rfl, outside, rfl⟩ := execDtryparse_next h
  · exact absurd raised.symm (code_ne_zero e)
  · obtain rfl := error_of_withErr raised
    exact ⟨outside, .dtryparse, by simp [spanReaders], rfl⟩

/-- A command that ends with the code of an error has a cause of that error. -/
theorem errorCause_of_exec (h : exec i s = .next t) (raised : t.err = e.code) : ErrorCause s i e := by
  cases i with
  | rotl reg sh => exact errorCause_of_rotl h raised
  | short n | long n | hash128 n | hash64 n | hash32 n | update n =>
    exact errorCause_of_message (by simp [oneShots]) h raised
  | dparse n => exact errorCause_of_dparse h raised
  | dtryparse n => exact errorCause_of_dtryparse h raised
  | nop | shortMix | shortEnd | mix | endPartial | endMix | init | final | dzero | dtohex | deq | dhash =>
    exact absurd raised (err_of_complete h)

/-! ### The statements -/

/-- Settles O52: `InvalidArgument` has two causes, a null text and a null message with a length, and neither is one of
`DTRYPARSE`. -/
theorem nullReferenceErrors : Obligations.NullReferenceErrors := by
  intro s
  refine ⟨fun f hf nonempty => ErrorCause.raises (e := .invalidArgument) (.inr ⟨nonempty, f, hf, rfl⟩),
    fun f hf empty => ⟨messageOperand_null empty, ?_⟩, ErrorCause.raises (e := .invalidArgument) (.inl rfl),
    fun n t h raised => ?_, fun i t h raised => errorCause_of_exec (e := .invalidArgument) h raised⟩
  · obtain ⟨write, run⟩ := exec_eq_onOperand f hf
    rw [run, messageOperand_null empty]
    exact ⟨_, rfl, rfl⟩
  · obtain other | ⟨-, other⟩ := errorCause_of_exec (e := .invalidArgument) h raised
    · cases other
    · simp [oneShots] at other

/-- Settles O53: `Format` has one cause, and the three texts are evaluated. -/
theorem formatErrorOnlyFromDparse : Obligations.FormatErrorOnlyFromDparse :=
  ⟨fun _ _ _ h raised => errorCause_of_exec (e := .format) h raised, fun _ => exec_dparse_malformed,
    by decide, parseText_blank nofun, by decide⟩

/-- Settles O54: an illegal word never reaches its command, a null reference is a cause that does not mention the
span, and a span outside the memory is one that does not mention the text. -/
theorem errorPriority : Obligations.ErrorPriority :=
  ⟨fun _ _ s illegal => runCommand_error illegal s,
    fun _ f hf nonempty _ => ErrorCause.raises (e := .invalidArgument) (.inr ⟨nonempty, f, hf, rfl⟩),
    fun _ _ => ErrorCause.raises (e := .invalidArgument) (.inl rfl),
    fun _ outside _ => ErrorCause.raises (e := .outOfRange) ⟨outside, .dparse, by simp [spanReaders], rfl⟩⟩

end Sys2Proof.Machine
end

section
/-! SUPPORT. Reset (70_reset_and_hazards.md R260): what a host reads after the reset event and after power-on, with the
statement about it. -/

namespace Sys2Proof.Machine

variable {s : State}

/-! ### The reset event -/

/-- The reset event is taken like any other host action: the port drops it from its list and the block resets. -/
theorem step_nextIsReset (h : s.nextIsReset) : ∃ rest, step s = .next { s with pending := rest }.hostReset := by
  obtain ⟨rest, hp⟩ := List.head?_eq_some_iff.mp h
  exact ⟨rest, step_action hp⟩

/-- What the reset event keeps, the message memory and the port, is no register: every register reads as after
power-on. -/
theorem readReg_hostReset (s : State) (r : Reg) : s.hostReset.readReg r = (State.resetWith s.cfg).readReg r := by
  cases r <;> rfl

@[simp] theorem msgByte_hostReset (s : State) (a : Nat) : s.hostReset.msgByte a = s.msgByte a := rfl

@[simp] theorem hostReset_cfg (s : State) : s.hostReset.cfg = s.cfg := rfl

/-! ### Power-on -/

@[simp] theorem le64_zeros (n : Nat) : le64 (zeros n) = 0 := by
  induction n with
  | zero => rfl
  | succ n ih =>
    have unfolded : zeros (n + 1) = 0 :: zeros n := List.replicate_succ
    rw [unfolded, le64, ih]
    rfl

/-- Any bytes of an empty `EBUF` are zeros. -/
theorem slice_zeros (n p q : Nat) : slice (zeros n) p q = zeros (min (q - p) (n - p)) := by
  simp [slice, zeros]

/-- An `EBUF` register packs eight buffer bytes, all of them 0 after power-on (R42, R260). -/
theorem readReg_resetWith_ebuf (c : Config) (k : Fin 24) : (State.resetWith c).readReg (.ebuf k) = 0 := by
  have empty : (State.resetWith c).eng.ebuf.toList = zeros 192 := Vector.toList_replicate
  rw [State.readReg, empty, slice_zeros, le64_zeros]

/-- `STATUS` does not depend on the parameters, and its four fields are 0 after power-on: an engine that holds no byte
is not on the Long path (R26, R30, R260). -/
theorem statusWord_resetWith (c : Config) : (State.resetWith c).statusWord = 0 := by
  have anyConfig : (State.resetWith c).statusWord = State.reset.statusWord := rfl
  rw [anyConfig]
  decide

/-- Every register but the hardwired `ID` reads 0 after power-on. -/
theorem readReg_resetWith (c : Config) {r : Reg} (h : r ≠ .id) : (State.resetWith c).readReg r = 0 := by
  cases r with
  | id => exact absurd rfl h
  | hex k | v k | w k | h k => exact Vector.getElem_replicate k.isLt
  | ebuf k => exact readReg_resetWith_ebuf c k
  | status => exact statusWord_resetWith c
  | cmd | seed1 | seed2 | srcAddr | srcLen | dig1 | dig2 | cmp1 | cmp2 | hcode | elen | ecnt => rfl

/-- With no byte written since power-on, a message byte reads as `MSG_INIT` (R69). -/
@[simp] theorem msgByte_resetWith (c : Config) (a : Nat) : (State.resetWith c).msgByte a = c.initByte a := rfl

/-! ### The statement -/

/-- Settles O56: the step of a reset event ends in a state that reads as power-on reads, under the same parameters and
over the same message bytes. -/
theorem resetEventClearsEveryRegister : Obligations.ResetEventClearsEveryRegister := by
  refine ⟨fun s h => ?_, fun c => ⟨rfl, fun _ => readReg_resetWith c, msgByte_resetWith c⟩⟩
  obtain ⟨rest, run⟩ := step_nextIsReset h
  refine ⟨_, run, rfl, fun r hr => ?_, msgByte_hostReset _, hostReset_cfg _⟩
  rw [readReg_hostReset]
  exact readReg_resetWith s.cfg hr

end Sys2Proof.Machine
end

section
/-! SUPPORT. The command word of 30_encoding.md (R80 to R90): the fields of an encoded word, the encoder and the decoder
as inverses of each other, and the rows of the opcode map; and the register map of 10_state.md (R22). With the
statements about them. -/

namespace Sys2Proof.Machine

variable {w : Word} {i : Instr} {op : BitVec 8} {n : Bool} {reg : BitVec 4} {sh : BitVec 6}

/-! ### The bits of a word -/

/-- Bit `j` of a packed word, field by field (R81, R90). -/
theorem getLsbD_packWord (op : BitVec 8) (n : Bool) (reg : BitVec 4) (sh : BitVec 6) (j : Nat) :
    (packWord op n reg sh).getLsbD j =
      if j < 8 then op.getLsbD j else if j = 8 then n
      else if 16 ≤ j ∧ j < 20 then reg.getLsbD (j - 16)
      else if 24 ≤ j ∧ j < 30 then sh.getLsbD (j - 24) else false := by
  simp only [packWord, BitVec.getLsbD_or, BitVec.getLsbD_shiftLeft, BitVec.getLsbD_setWidth, BitVec.getLsbD_ofBool]
  have beyondOp (h : 8 ≤ j) : op.getLsbD j = false := BitVec.getLsbD_of_ge _ _ h
  have beyondReg (h : 20 ≤ j) : reg.getLsbD (j - 16) = false := BitVec.getLsbD_of_ge _ _ (by omega)
  have beyondSh (h : 30 ≤ j) : sh.getLsbD (j - 24) = false := BitVec.getLsbD_of_ge _ _ (by omega)
  grind

theorem getLsbD_nullUsed {j : Nat} (h : j < 64) : nullUsed.getLsbD j = decide (j < 9) := by
  revert j
  decide

theorem getLsbD_rotlUsed {j : Nat} (h : j < 64) :
    rotlUsed.getLsbD j = decide (j < 8 ∨ (16 ≤ j ∧ j < 20) ∨ (24 ≤ j ∧ j < 30)) := by
  revert j
  decide

/-- No bit is set in a word and in a set of reserved bits exactly when each reserved bit is clear. -/
theorem and_not_eq_zero_iff {w used : Word} :
    w &&& ~~~used = 0 ↔ ∀ j < 64, used.getLsbD j = false → w.getLsbD j = false := by
  constructor
  · intro clear j hj reserved
    have bit : (w &&& ~~~used).getLsbD j = false := by rw [clear]; exact BitVec.getLsbD_zero
    simpa only [BitVec.getLsbD_and, BitVec.getLsbD_not, hj, reserved, decide_true, Bool.not_false,
      Bool.and_true] using bit
  · intro clear
    refine BitVec.eq_of_getLsbD_eq fun j hj => ?_
    cases reserved : used.getLsbD j with
    | false => simp [clear j hj reserved]
    | true => simp [reserved]

/-! ### The fields of a packed word -/

@[simp] theorem opField_packWord : opField (packWord op n reg sh) = op := by
  ext j hj
  simp [opField, getLsbD_packWord, hj]

@[simp] theorem nField_packWord : nField (packWord op n reg sh) = n := by
  rw [nField, getLsbD_packWord]
  rfl

@[simp] theorem regField_packWord : regField (packWord op n reg sh) = reg := by
  ext j hj
  simp [regField, getLsbD_packWord, hj, show ¬ 16 + j < 8 by omega, show 16 + j ≠ 8 by omega, show 16 + j < 20 by omega]

@[simp] theorem shField_packWord : shField (packWord op n reg sh) = sh := by
  ext j hj
  simp [shField, getLsbD_packWord, hj, show ¬ 24 + j < 8 by omega, show 24 + j ≠ 8 by omega,
    show ¬ 24 + j < 20 by omega, show 24 + j < 30 by omega]

/-- A packed word uses no bit outside the fields that are not 0. -/
theorem packWord_plainUsed : packWord op false 0 0 &&& ~~~plainUsed = 0 := by
  refine and_not_eq_zero_iff.mpr fun j _ reserved => ?_
  rw [getLsbD_plainUsed, decide_eq_false_iff_not] at reserved
  simp [getLsbD_packWord, reserved]

theorem packWord_nullUsed : packWord op n 0 0 &&& ~~~nullUsed = 0 := by
  refine and_not_eq_zero_iff.mpr fun j hj reserved => ?_
  rw [getLsbD_nullUsed hj, decide_eq_false_iff_not] at reserved
  simp [getLsbD_packWord, show ¬ j < 8 by omega, show j ≠ 8 by omega]

theorem packWord_rotlUsed : packWord op false reg sh &&& ~~~rotlUsed = 0 := by
  refine and_not_eq_zero_iff.mpr fun j hj reserved => ?_
  rw [getLsbD_rotlUsed hj, decide_eq_false_iff_not] at reserved
  simp only [getLsbD_packWord]
  grind

/-- A word with no bit outside its used fields is packed from them. -/
theorem packWord_of_plainUsed (clear : w &&& ~~~plainUsed = 0) : packWord (opField w) false 0 0 = w :=
  word_eq_iff.mpr ⟨opField_packWord, packWord_plainUsed.trans clear.symm⟩

theorem packWord_of_nullUsed (clear : w &&& ~~~nullUsed = 0) : packWord (opField w) (nField w) 0 0 = w := by
  refine BitVec.eq_of_getLsbD_eq fun j hj => ?_
  have bit := and_not_eq_zero_iff.mp clear j hj
  rw [getLsbD_nullUsed hj] at bit
  simp only [getLsbD_packWord, opField, nField, BitVec.getLsbD_extractLsb']
  grind

theorem packWord_of_rotlUsed (clear : w &&& ~~~rotlUsed = 0) :
    packWord (opField w) false (regField w) (shField w) = w := by
  refine BitVec.eq_of_getLsbD_eq fun j hj => ?_
  have bit := and_not_eq_zero_iff.mp clear j hj
  rw [getLsbD_rotlUsed hj] at bit
  simp only [getLsbD_packWord, opField, regField, shField, BitVec.getLsbD_extractLsb']
  grind

/-! ### The decoder and the encoder -/

theorem plainForm_ok_iff {j : Instr} : plainForm w i = .ok j ↔ w &&& ~~~plainUsed = 0 ∧ i = j := by
  by_cases clear : w &&& ~~~plainUsed = 0#64 <;> simp [plainForm, clear]

theorem nullForm_ok_iff {f : Bool → Instr} {j : Instr} :
    nullForm w f = .ok j ↔ w &&& ~~~nullUsed = 0 ∧ f (nField w) = j := by
  by_cases clear : w &&& ~~~nullUsed = 0#64 <;> simp [nullForm, clear]

theorem rotlForm_ok_iff {j : Instr} :
    rotlForm w = .ok j ↔ w &&& ~~~rotlUsed = 0 ∧ regLegal (regField w) ∧ .rotl (regField w) (shField w) = j := by
  by_cases clear : w &&& ~~~rotlUsed = 0#64
  · by_cases legal : regLegal (regField w) <;> simp [rotlForm, clear, legal]
  · simp [rotlForm, clear]

/-- The packed word of an opcode without fields passes that opcode's form. -/
theorem plainForm_packWord : plainForm (packWord op false 0 0) i = .ok i :=
  plainForm_ok_iff.mpr ⟨packWord_plainUsed, rfl⟩

theorem nullForm_packWord {f : Bool → Instr} : nullForm (packWord op n 0 0) f = .ok (f n) :=
  nullForm_ok_iff.mpr ⟨packWord_nullUsed, congrArg f nField_packWord⟩

theorem rotlForm_packWord (legal : regLegal reg) : rotlForm (packWord op false reg sh) = .ok (.rotl reg sh) :=
  rotlForm_ok_iff.mpr ⟨packWord_rotlUsed, by simpa using legal, by simp⟩

/-- Settles O17: the packed word has the command's opcode, and passes the form the decoder chooses by it. -/
theorem decodeOfEncodeIsTheCommand : Obligations.DecodeOfEncodeIsTheCommand := by
  intro i legal
  cases i with
  | rotl reg sh =>
    simpa [decode, encode, opcodeOf] using rotlForm_packWord (op := 0x10) (of_decide_eq_true legal)
  | short n | long n | hash128 n | hash64 n | hash32 n | update n | dparse n | dtryparse n =>
    simpa [decode, encode, opcodeOf] using nullForm_packWord
  | nop | shortMix | shortEnd | mix | endPartial | endMix | init | final | dzero | dtohex | deq | dhash =>
    simpa [decode, encode, opcodeOf] using plainForm_packWord

/-- Settles O18: the form that accepts a word leaves no bit outside its used fields, so the word is packed from them. -/
theorem decodedWordIsItsEncoding : Obligations.DecodedWordIsItsEncoding := by
  intro w i h
  unfold decode at h
  split at h
  case h_2 opcode =>
    obtain ⟨clear, legal, rfl⟩ := rotlForm_ok_iff.mp h
    have word := packWord_of_rotlUsed clear
    rw [opField_eq_ofNat opcode] at word
    exact ⟨decide_eq_true legal, word⟩
  case h_22 => cases h
  case h_8 opcode | h_9 opcode | h_10 opcode | h_11 opcode | h_12 opcode | h_14 opcode | h_18 opcode | h_19 opcode =>
    obtain ⟨clear, rfl⟩ := nullForm_ok_iff.mp h
    have word := packWord_of_nullUsed clear
    rw [opField_eq_ofNat opcode] at word
    exact ⟨rfl, word⟩
  all_goals
    next opcode =>
      obtain ⟨clear, rfl⟩ := plainForm_ok_iff.mp h
      have word := packWord_of_plainUsed clear
      rw [opField_eq_ofNat opcode] at word
      exact ⟨rfl, word⟩

/-! ### The opcode map -/

theorem opcodeRows_opcodes_nodup : (opcodeRows.map fun row => opField row.fixed).Nodup := by decide

/-- Settles O20: a word has the opcode of every row it matches, and no two rows have the same opcode. -/
theorem opcodeRowsNeverOverlap : Obligations.OpcodeRowsNeverOverlap := by
  refine List.Pairwise.imp_of_mem (fun {a b} ha hb differ w first second => differ ?_)
    (List.pairwise_map.mp opcodeRows_opcodes_nodup)
  exact ((hits_iff ha w).mp first).1.trans ((hits_iff hb w).mp second).1.symm

/-- Settles O21: each word is decoded by evaluation. -/
theorem decodesTheWordsOfTheSpec : Obligations.DecodesTheWordsOfTheSpec := by
  unfold Obligations.DecodesTheWordsOfTheSpec
  decide

/-! ### The register map -/

theorem regOf_regNumber (r : Reg) : regOf (regNumber r) = some r := by
  cases r with
  | hex k | v k | w k | h k | ebuf k => revert k; decide
  | id | cmd | status | seed1 | seed2 | srcAddr | srcLen | dig1 | dig2 | cmp1 | cmp2 | hcode | elen | ecnt => rfl

/-- The map, read back slot by slot: each of the 256 numbers is the number of its register, if it has one. -/
theorem regNumber_of_mem_regOf : ∀ number, ∀ r ∈ regOf number, number = regNumber r := by decide

theorem regOf_eq_none_iff : ∀ number, regOf number = none ↔
    ((0x1C ≤ number.toNat ∧ number.toNat ≤ 0x1F) ∨ (0x2C ≤ number.toNat ∧ number.toNat ≤ 0x2F) ∨
     (0x3E ≤ number.toNat ∧ number.toNat ≤ 0x3F) ∨ 0x58 ≤ number.toNat) := by decide

/-- Settles O3: the two maps are inverse to each other, and the map leaves exactly the reserved slots. -/
theorem registerMapIsExact : Obligations.RegisterMapIsExact :=
  ⟨fun number r => ⟨regNumber_of_mem_regOf number r, fun h => h ▸ regOf_regNumber r⟩, regOf_eq_none_iff⟩

end Sys2Proof.Machine
end

section
/-! SUPPORT. What a command reads and writes (30_encoding.md R88, 10_state.md, 70_reset_and_hazards.md section 3): the
registers it can change, the registers it keeps, that it always answers, and what its outcome does not depend on; and
the invariant of the whole state. With the statements about them. -/

namespace Sys2Proof.Machine

variable {s t u : State} {i : Instr} {α : Type}

/-! ### The registers a command can change -/

/-- A part of the state other than `ERR` that every effect of the command keeps is kept by the command. -/
theorem exec_keeps {part : State → α} (beyondErr : ∀ s code, part (s.withErr code) = part s)
    (effects : ∀ u, CommandEffect s i u → part u = part s) (h : exec i s = .next t) : part t = part s := by
  obtain ⟨u, effect, rfl⟩ | ⟨e, rfl⟩ := exec_next h
  · rw [beyondErr, effects u effect]
  · exact beyondErr s e.code

/-- A part of the state other than `ERR` is changed by a command only as one of its effects. -/
theorem exec_changed {part : State → α} {P : Prop} (beyondErr : ∀ s code, part (s.withErr code) = part s)
    (effects : ∀ u, CommandEffect s i u → part u ≠ part s → P) (h : exec i s = .next t)
    (changed : part t ≠ part s) : P :=
  by_contra fun notP => changed (exec_keeps beyondErr (fun u effect => by_contra fun c => notP (effects u effect c)) h)

theorem writesLatch_of_isParse (h : isParse i) : writesLatch i := by
  cases i with
  | dparse | dtryparse => rfl
  | _ => cases h

theorem CommandEffect.latch_changed (h : CommandEffect s i u) (changed : (u.dig1, u.dig2) ≠ (s.dig1, s.dig2)) :
    writesLatch i := by
  cases h with
  | latch d hi => exact hi
  | parse r hi => exact writesLatch_of_isParse hi
  | nothing | working | engine | text | compare | hashCode => simp at changed

@[simp] theorem tryParseState_hcode (s : State) (r : Option Digest) : (tryParseState s r).hcode = s.hcode := by
  cases r <;> rfl

@[simp] theorem tryParseState_hex (s : State) (r : Option Digest) : (tryParseState s r).hex = s.hex := by
  cases r <;> rfl

@[simp] theorem tryParseState_v (s : State) (r : Option Digest) : (tryParseState s r).v = s.v := by
  cases r <;> rfl

@[simp] theorem tryParseState_eng (s : State) (r : Option Digest) : (tryParseState s r).eng = s.eng := by
  cases r <;> rfl

theorem CommandEffect.hcode_changed (h : CommandEffect s i u) (changed : u.hcode ≠ s.hcode) : i = .dhash := by
  cases h with
  | hashCode c => rfl
  | nothing | working | engine | latch | text | parse | compare => simp at changed

theorem CommandEffect.hex_changed (h : CommandEffect s i u) (changed : u.hex ≠ s.hex) : i = .dtohex := by
  cases h with
  | text x => rfl
  | nothing | working | engine | latch | parse | compare | hashCode => simp at changed

theorem CommandEffect.v_changed (h : CommandEffect s i u) (changed : u.v ≠ s.v) : isMixer i := by
  cases h with
  | working v hi => exact hi
  | nothing | engine | latch | text | parse | compare | hashCode => simp at changed

theorem CommandEffect.eng_changed (h : CommandEffect s i u) (changed : u.eng ≠ s.eng) : writesEngine i := by
  cases h with
  | engine e hi => exact hi
  | nothing | working | latch | text | parse | compare | hashCode => simp at changed

theorem exec_eng_changed (h : exec i s = .next t) (changed : t.eng ≠ s.eng) : writesEngine i :=
  exec_changed (part := State.eng) (fun _ _ => rfl) (fun _ => CommandEffect.eng_changed) h changed

theorem exec_hex_changed (h : exec i s = .next t) (changed : t.hex ≠ s.hex) : i = .dtohex :=
  exec_changed (part := State.hex) (fun _ _ => rfl) (fun _ => CommandEffect.hex_changed) h changed

/-- Settles O9: register by register, each effect that writes it belongs to a command that lists it. -/
theorem registersChangeOnlyByTheirCommands : Obligations.RegistersChangeOnlyByTheirCommands := by
  intro i s t h
  refine ⟨fun changed => ?_,
    exec_changed (part := State.hcode) (fun _ _ => rfl) (fun _ => CommandEffect.hcode_changed) h,
    exec_hex_changed h, exec_changed (part := State.v) (fun _ _ => rfl) (fun _ => CommandEffect.v_changed) h,
    exec_eng_changed h, fun changed => (exec_eq_changed h changed).1, fun changed => (exec_parsed_changed h changed).1⟩
  exact exec_changed (part := fun s => (s.dig1, s.dig2)) (fun _ _ => rfl) (fun _ => CommandEffect.latch_changed) h
    fun same => changed.elim (· (congrArg Prod.fst same)) (· (congrArg Prod.snd same))

/-! ### The registers every command keeps -/

/-- What only the host writes: the operands of the commands, the parameters, the memory and the port (10_state.md R34,
R38). -/
def State.hostOwned (s : State) :
    (Word × Word × Vector Word 12 × Word × Word × Word × Word) × Config × Memory × Word × List HostAction × Word :=
  ((s.cmp1, s.cmp2, s.w, s.seed1, s.seed2, s.srcAddr, s.srcLen), s.cfg, s.msg, s.cmd, s.pending, s.readData)

theorem CommandEffect.keeps_hostOwned (h : CommandEffect s i u) : u.hostOwned = s.hostOwned := by
  cases h with
  | parse r => cases r <;> rfl
  | nothing | working | engine | latch | text | compare | hashCode => rfl

theorem exec_keeps_hostOwned (h : exec i s = .next t) : t.hostOwned = s.hostOwned :=
  exec_keeps (fun _ _ => rfl) (fun _ => CommandEffect.keeps_hostOwned) h

theorem exec_keeps_cfg (h : exec i s = .next t) : t.cfg = s.cfg :=
  congrArg (·.2.1) (exec_keeps_hostOwned h)

/-- Settles O10: no effect of a command writes what the host owns. -/
theorem commandsLeaveHostOperandsAndMemory : Obligations.CommandsLeaveHostOperandsAndMemory := by
  intro i s t h
  have kept := exec_keeps_hostOwned h
  simp only [State.hostOwned, Prod.mk.injEq] at kept
  obtain ⟨⟨cmp1, cmp2, w, seed1, seed2, srcAddr, srcLen⟩, cfg, msg, cmd, pending, readData⟩ := kept
  exact ⟨cmp1, cmp2, w, seed1, seed2, srcAddr, srcLen, cfg, cmd, pending, readData,
    fun a => by rw [State.msgByte, State.msgByte, cfg, msg]⟩

/-! ### Every command answers -/

/-- The outcomes of a reader: on a null reference, on a span inside the memory, or the error of the span check. -/
theorem ReadsSpan.answers {f : Bool → Instr} {outcome : Option (List Byte) → State → State}
    (reads : ReadsSpan f outcome) (n : Bool) (s : State) : ∃ t, exec (f n) s = .next t := by
  cases n with
  | true => exact ⟨_, reads.null s⟩
  | false =>
    cases operand : spanOperand s with
    | ok d => exact ⟨_, reads.span operand⟩
    | error e => exact ⟨_, reads.error operand⟩

theorem exec_answers (i : Instr) (s : State) : ∃ t, exec i s = .next t := by
  cases i with
  | rotl reg sh =>
    by_cases present : reg.toNat < 12
    · exact ⟨_, dif_pos present⟩
    · exact ⟨_, dif_neg present⟩
  | short n | long n | hash128 n | hash64 n | hash32 n | update n => exact onOperand_answers ..
  | dparse n => exact dparse_readsSpan.answers n s
  | dtryparse n => exact dtryparse_readsSpan.answers n s
  | nop | shortMix | shortEnd | mix | endPartial | endMix | init | final | dzero | dtohex | deq | dhash =>
    exact ⟨_, rfl⟩

theorem runCommand_answers (w : Word) (s : State) : ∃ t, runCommand w s = .next t := by
  cases decoded : decode w with
  | ok i => exact runCommand_ok decoded s ▸ exec_answers i _
  | error e => exact ⟨_, runCommand_error decoded s⟩

theorem act_answers (a : HostAction) (s : State) : ∃ t, act a s = .next t := by
  cases a with
  | writeReg n x =>
    by_cases command : n = 0x01
    · exact command ▸ runCommand_answers x s
    · exact ⟨_, act_writeReg command x s⟩
  | readReg | writeMsg | readMsg | reset => exact ⟨_, rfl⟩

/-- Settles O11: an idle step keeps the state, and every host action answers. -/
theorem everyStepAnswersANextState : Obligations.EveryStepAnswersANextState := by
  intro s
  cases actions : s.pending with
  | nil => exact ⟨s, step_idle actions⟩
  | cons a rest => exact step_action actions ▸ act_answers a _

/-! ### The commands that read the memory -/

/-- The same bytes at another address, in another memory, are the same span. -/
theorem spanBytes_withSpanSource {a : Word} {m : Memory}
    (same : ∀ k < s.srcLen.toNat, Memory.read s.cfg m (a.toNat + k) = s.msgByte (s.srcAddr.toNat + k)) :
    (s.withSpanSource a m).spanBytes = s.spanBytes :=
  List.map_congr_left fun k hk => same k (List.mem_range.mp hk)

/-- Settles O14: past the span check a reader sees the bytes of the span alone. -/
theorem readersDependOnlyOnTheSpanBytes : Obligations.ReadersDependOnlyOnTheSpanBytes := by
  intro s a m n f hf t inside inside' same h
  obtain ⟨outcome, reads⟩ := exists_readsSpan f hf
  have moved (o : Option (List Byte)) (ht : outcome o s = t) :
      outcome o (s.withSpanSource a m) = t.withSpanSource a m := ht ▸ reads.source o s a m
  cases n with
  | true =>
    have ht := Host.Outcome.next.inj ((reads.null s).symm.trans h)
    exact (reads.null _).trans (congrArg _ (moved none ht))
  | false =>
    have ht := Host.Outcome.next.inj ((reads.span (spanOperand_of_inRange inside)).symm.trans h)
    have operand : spanOperand (s.withSpanSource a m) = .ok s.spanBytes :=
      spanBytes_withSpanSource same ▸ spanOperand_of_inRange inside'
    exact (reads.span operand).trans (congrArg _ (moved _ ht))

/-! ### Engine and working registers -/

/-- An update of registers that no span check, no error and no parse sees. -/
structure HiddenFromReaders (update : State → State) : Prop where
  span (s : State) : spanOperand (update s) = spanOperand s
  srcLen (s : State) : (update s).srcLen = s.srcLen
  err (s : State) (code : BitVec 4) : (update s).withErr code = update (s.withErr code)
  parse (s : State) (r : Option Digest) : tryParseState (update s) r = update (tryParseState s r)

section

variable {f : Bool → Instr} {update : State → State} {n : Bool} (hidden : HiddenFromReaders update)

include hidden

/-- A reader whose outcome commutes with a hidden update does the same before and after it. -/
theorem HiddenFromReaders.exec_reader {outcome : Option (List Byte) → State → State} (reads : ReadsSpan f outcome)
    (commutes : ∀ o s, outcome o (update s) = update (outcome o s)) (h : exec (f n) s = .next t) :
    exec (f n) (update s) = .next (update t) := by
  cases n with
  | true =>
    obtain rfl := Host.Outcome.next.inj ((reads.null s).symm.trans h)
    rw [reads.null, commutes]
  | false =>
    cases operand : spanOperand s with
    | ok d =>
      obtain rfl := Host.Outcome.next.inj ((reads.span operand).symm.trans h)
      rw [reads.span ((hidden.span s).trans operand), commutes]
    | error e =>
      obtain rfl := Host.Outcome.next.inj ((reads.error operand).symm.trans h)
      rw [reads.error ((hidden.span s).trans operand), raiseError, hidden.err]

theorem HiddenFromReaders.exec_message {write : List Byte → State → State} (reads : ReadsSpan f (messageOutcome write))
    (commutes : ∀ d s, write d (update s) = update (write d s)) (h : exec (f n) s = .next t) :
    exec (f n) (update s) = .next (update t) := by
  refine hidden.exec_reader reads (fun o s => ?_) h
  cases o with
  | some d => simp only [messageOutcome, commutes, hidden.err]
  | none =>
    simp only [messageOutcome, hidden.srcLen, commutes]
    split <;> exact hidden.err _ _

theorem HiddenFromReaders.exec_dparse (h : exec (.dparse n) s = .next t) :
    exec (.dparse n) (update s) = .next (update t) := by
  refine hidden.exec_reader dparse_readsSpan (fun o s => ?_) h
  cases o with
  | some d =>
    simp only [dparseOutcome]
    cases parseText d with
    | some x => exact (congrArg (State.withErr · 0) (hidden.parse s (some x))).trans (hidden.err _ _)
    | none => exact hidden.err _ _
  | none => exact hidden.err _ _

theorem HiddenFromReaders.exec_dtryparse (h : exec (.dtryparse n) s = .next t) :
    exec (.dtryparse n) (update s) = .next (update t) := by
  refine hidden.exec_reader dtryparse_readsSpan (fun o s => ?_) h
  rw [dtryparseOutcome, dtryparseOutcome, hidden.parse, hidden.err]

end

/-- The working registers, written together. -/
def State.withWorking (s : State) (v w : Vector Word 12) : State := { s with v := v, w := w }

theorem withEngine_hidden (e : Engine) : HiddenFromReaders (·.withEngine e) :=
  ⟨fun _ => rfl, fun _ => rfl, fun _ _ => rfl, fun _ r => by cases r <;> rfl⟩

theorem withWorking_hidden (v w : Vector Word 12) : HiddenFromReaders (·.withWorking v w) :=
  ⟨fun _ => rfl, fun _ => rfl, fun _ _ => rfl, fun _ r => by cases r <;> rfl⟩

/-- A command that is no engine command does not see the engine. -/
theorem exec_withEngine (notEngine : isEngine i = false) (h : exec i s = .next t) (e : Engine) :
    exec i (s.withEngine e) = .next (t.withEngine e) := by
  cases i with
  | init | update | final => cases notEngine
  | rotl reg sh =>
    by_cases present : reg.toNat < 12
    · obtain rfl := complete_eq_next.mp ((dif_pos present).symm.trans h)
      exact dif_pos present
    · obtain rfl := raiseError_eq_next.mp ((dif_neg present).symm.trans h)
      exact dif_neg present
  | short n | long n | hash128 n | hash64 n | hash32 n =>
    exact (withEngine_hidden e).exec_message
      (readsSpan_of_messageOperand _ (fun _ _ => rfl) fun _ _ _ _ => rfl) (fun _ _ => rfl) h
  | dparse n => exact (withEngine_hidden e).exec_dparse h
  | dtryparse n => exact (withEngine_hidden e).exec_dtryparse h
  | nop | shortMix | shortEnd | mix | endPartial | endMix | dzero | dtohex | deq | dhash =>
    obtain rfl := complete_eq_next.mp h
    rfl

/-- A command that is no mixer primitive does not see the working registers. -/
theorem exec_withWorking (notMixer : isMixer i = false) (h : exec i s = .next t) (v w : Vector Word 12) :
    exec i (s.withWorking v w) = .next (t.withWorking v w) := by
  cases i with
  | rotl | shortMix | shortEnd | mix | endPartial | endMix => cases notMixer
  | short n | long n | hash128 n | hash64 n | hash32 n | update n =>
    exact (withWorking_hidden v w).exec_message
      (readsSpan_of_messageOperand _ (fun _ _ => rfl) fun _ _ _ _ => rfl) (fun _ _ => rfl) h
  | dparse n => exact (withWorking_hidden v w).exec_dparse h
  | dtryparse n => exact (withWorking_hidden v w).exec_dtryparse h
  | nop | init | final | dzero | dtohex | deq | dhash =>
    obtain rfl := complete_eq_next.mp h
    rfl

/-- Settles O43: outside the engine commands no outcome sees the engine, outside the mixer primitives none sees `V` and
`W`. -/
theorem engineAndWorkingRegistersAreSeparate : Obligations.EngineAndWorkingRegistersAreSeparate :=
  ⟨fun _ _ _ => exec_withEngine, fun _ _ _ => exec_withWorking⟩

/-! ### A command that raised an error -/

/-- The causes of the errors do not look at `ERR`. -/
theorem ErrorCause.withErr {e : CmdError} (cause : ErrorCause s i e) (code : BitVec 4) :
    ErrorCause (s.withErr code) i e := by
  cases e <;> exact cause

/-- Settles O55: the cause of the error is still there, and the error changes nothing but `ERR`, which has its code. -/
theorem reissuedErrorRepeats : Obligations.ReissuedErrorRepeats := by
  intro i s t h failed
  obtain done | ⟨e, rfl⟩ := exec_err h
  · exact absurd done failed
  · rw [((errorCause_of_exec (e := e) h rfl).withErr e.code).raises, State.withErr_withErr]

/-! ### The invariant of the whole state -/

theorem upperDigit_hexDigit (nib : BitVec 4) : upperDigit (hexDigit nib) := by
  revert nib
  decide

/-- The text `DTOHEX` writes is legal. -/
theorem textLegal_hexWords (d : Digest) : textLegal (hexWords d) :=
  .inr fun k i hi => byteOf_hexWords d k ⟨i, hi⟩ ▸ upperDigit_hexDigit _

theorem exec_keeps_textLegal (h : exec i s = .next t) (legal : textLegal s.hex) : textLegal t.hex := by
  by_cases changed : t.hex = s.hex
  · exact changed ▸ legal
  · obtain rfl := exec_hex_changed h changed
    obtain rfl := complete_eq_next.mp h
    exact textLegal_hexWords _

/-- `INIT` empties the buffer and `UPDATE` leaves at most 191 bytes in it; no other command writes the engine. -/
theorem exec_keeps_ecnt_le (h : exec i s = .next t) (bound : s.eng.ecnt.toNat ≤ 191) : t.eng.ecnt.toNat ≤ 191 := by
  by_cases changed : t.eng = s.eng
  · exact changed ▸ bound
  · have writes := exec_eng_changed h changed
    cases i with
    | init =>
      obtain rfl := complete_eq_next.mp h
      exact Nat.zero_le _
    | update n =>
      obtain ⟨d, -, rfl⟩ | ⟨e, -, rfl⟩ := onOperand_next h
      · exact Engine.update_ecnt_le _ d
      · exact bound
    | _ => cases writes

theorem exec_err_le (h : exec i s = .next t) : t.err.toNat ≤ 4 := by
  obtain done | ⟨e, rfl⟩ := exec_err h
  · exact done ▸ Nat.zero_le _
  · exact code_le_four e

theorem exec_keeps_inv (h : exec i s = .next t) (inv : s.Inv) : t.Inv := by
  obtain ⟨cfg, msg, -, ecnt, hex⟩ := inv
  have keptCfg := exec_keeps_cfg h
  have keptMsg := exec_keeps_msg h
  exact ⟨keptCfg ▸ cfg, keptCfg ▸ keptMsg ▸ msg, exec_err_le h, exec_keeps_ecnt_le h ecnt, exec_keeps_textLegal h hex⟩

/-- A host access keeps the fields a host reads only, so the parameters and the memory decide. -/
theorem SameReadOnly.keeps_inv (same : SameReadOnly s t) (inv : s.Inv) (cfg : t.cfg = s.cfg)
    (msg : Memory.wf t.cfg t.msg) : t.Inv := by
  obtain ⟨hcfg, -, herr, hecnt, hhex⟩ := inv
  exact ⟨cfg ▸ hcfg, msg, same.err ▸ herr, same.eng ▸ hecnt, same.hex ▸ hhex⟩

theorem hostWriteMsg_cfg (s : State) (a : Nat) (x : Byte) : (s.hostWriteMsg a x).cfg = s.cfg := by
  unfold State.hostWriteMsg
  split <;> rfl

/-- The registers at their reset values meet the invariant over any canonical memory. -/
theorem hostReset_inv (cfg : s.cfg.wf) (msg : Memory.wf s.cfg s.msg) : s.hostReset.Inv :=
  ⟨cfg, msg, Nat.zero_le _, Nat.zero_le _, .inl rfl⟩

/-- Settles O58: the memory after power-on is empty, the counts are 0 and no text has been written. -/
theorem resetMeetsTheInvariant : Obligations.ResetMeetsTheInvariant := fun c legal =>
  ⟨legal, Memory.nil_wf c, Nat.zero_le _, Nat.zero_le _, .inl rfl⟩

/-- Settles O59: host action by host action; only a command reaches the counts and the text, and only a host byte write
reaches the memory. -/
theorem everyStepKeepsTheInvariant : Obligations.EveryStepKeepsTheInvariant := by
  intro s t inv h
  have before (rest : List HostAction) : State.Inv { s with pending := rest } := inv
  obtain ⟨cfg, msg, -, ecnt, hex⟩ := id inv
  obtain ⟨-, rfl⟩ | ⟨w, i, rest, -, -, ht⟩ | ⟨w, e, rest, -, -, rfl⟩ | ⟨n, x, rest, -, -, rfl⟩ |
    ⟨n, rest, -, rfl⟩ | ⟨a, x, rest, -, rfl⟩ | ⟨a, rest, -, rfl⟩ | ⟨rest, -, rfl⟩ := step_cases h
  · exact inv
  · exact exec_keeps_inv ht inv
  · exact ⟨cfg, msg, Nat.le_refl 4, ecnt, hex⟩
  · obtain ⟨keptCfg, keptMsg, -⟩ := hostWriteReg_frame { s with pending := rest } n x
    refine (hostWriteReg_sameReadOnly _ n x).keeps_inv (before rest) keptCfg ?_
    rw [keptCfg, keptMsg]
    exact msg
  · exact inv
  · exact (hostWriteMsg_sameReadOnly _ a x).keeps_inv (before rest) (hostWriteMsg_cfg _ a x)
      (State.hostWriteMsg_wf (s := { s with pending := rest }) msg a x)
  · exact inv
  · exact hostReset_inv (s := { s with pending := rest }) cfg msg

end Sys2Proof.Machine
end

section
/-! SUPPORT. The incremental engine of 42_engine.md: an `UPDATE` and a `FINAL` in terms of the buffered bytes followed
by the new ones, the engine's invariant R162 along a run, and the digest of a run. With the statements about them. -/

namespace Sys2Proof.Machine

variable {e a b : Engine} {data m d : List Byte} {s t : State} {s1 s2 : Word}

/-! ### The buffer -/

/-- The bytes in the buffer that belong to the message (R42). -/
def Engine.buffered (e : Engine) : List Byte := bufferSlice e.ebuf 0 e.ecnt.toNat

theorem Engine.buffered_length (h : e.ecnt.toNat ≤ 192) : e.buffered.length = e.ecnt.toNat := by
  rw [Engine.buffered, bufferSlice_length]
  omega

theorem Engine.buffered_eq_nil (h : e.ecnt.toNat = 0) : e.buffered = [] := by
  rw [Engine.buffered, h, bufferSlice_zero, List.take_zero]

/-- A slice of the buffer inside its first `q` bytes is a slice of those. -/
theorem bufferSlice_eq_slice (buf : Vector Byte 192) {p r q : Nat} (h : r ≤ q) :
    bufferSlice buf p r = slice (bufferSlice buf 0 q) p r := by
  simp only [bufferSlice, slice, List.drop_zero, Nat.sub_zero, List.drop_take, List.take_take]
  congr 1
  omega

/-! ### `UPDATE` below 192 bytes -/

theorem Engine.update_of_lt (h : e.ecnt.toNat + data.length < 192) : e.update data = e.buffer data := if_pos h

theorem Engine.buffer_ecnt (h : e.ecnt.toNat + data.length < 192) :
    (e.buffer data).ecnt.toNat = e.ecnt.toNat + data.length :=
  Nat.mod_eq_of_lt (by omega)

theorem Engine.buffer_buffered (h : e.ecnt.toNat + data.length < 192) :
    (e.buffer data).buffered = e.buffered ++ data := by
  rw [Engine.buffered, Engine.buffer_ecnt h]
  exact bufferSlice_fill _ _ _ h.le

theorem Engine.lengthAfter_toNat (e : Engine) (data : List Byte) :
    (e.lengthAfter data).toNat = (e.elen.toNat + data.length) % 2 ^ 64 := by
  simp [Engine.lengthAfter]

/-- The empty message changes nothing. -/
theorem Engine.buffer_nil (e : Engine) : e.buffer [] = e := by
  simp [Engine.buffer, Engine.lengthAfter, fillBuffer_nil]

theorem onOperand_ok {operand : Except CmdError (List Byte)} (f : List Byte → State) (h : operand = .ok m) :
    onOperand operand s f = .next ((f m).withErr 0) := h ▸ rfl

theorem onOperand_error {operand : Except CmdError (List Byte)} {error : CmdError} (f : List Byte → State)
    (h : operand = .error error) : onOperand operand s f = .next (s.withErr error.code) := h ▸ rfl

/-- Past its operand `UPDATE` writes the engine and clears `ERR` (R163). -/
theorem exec_update_ok {n : Bool} (operand : messageOperand n s = .ok m) :
    exec (.update n) s = .next ((s.withEngine (s.eng.update m)).withErr 0) := onOperand_ok _ operand

/-- A refused `UPDATE` only sets `ERR` (R163). -/
theorem exec_update_error {n : Bool} {error : CmdError} (operand : messageOperand n s = .error error) :
    exec (.update n) s = .next (s.withErr error.code) := onOperand_error _ operand

/-- Settles O35: path (a) fills behind the buffered bytes and adds to both counts. -/
theorem updateBuffersAShortMessage : Obligations.UpdateBuffersAShortMessage := by
  intro s n m operand short
  have run := exec_update_ok operand
  rw [Engine.update_of_lt short] at run
  refine ⟨⟨_, run, rfl, rfl, Engine.buffer_ecnt short, Engine.lengthAfter_toNat _ _,
    fun j => fillBuffer_getElem _ _ _ _ j.isLt⟩, fun empty => ?_⟩
  rw [run, empty, Engine.buffer_nil]
  rfl

/-! ### `UPDATE` from 192 bytes on -/

/-- How many blocks of the buffered bytes followed by the new ones the completed buffer holds. -/
def Engine.bufferBlocks (e : Engine) : Nat := if e.ecnt.toNat = 0 then 0 else 2

/-- What is left of the span after the fill is what follows the blocks of the completed buffer. -/
theorem Engine.direct_eq (small : e.ecnt.toNat ≤ 191) :
    data.drop e.fillCount = (e.buffered ++ data).drop (96 * e.bufferBlocks) := by
  unfold Engine.fillCount Engine.bufferBlocks
  split
  · next empty => simp [Engine.buffered_eq_nil empty]
  · have length := Engine.buffered_length (e := e) (by omega)
    rw [List.drop_append, length, List.drop_eq_nil_of_le (as := e.buffered) (by omega), List.nil_append]

/-- The completed buffer is the first 192 bytes of the buffered ones followed by the new ones. -/
theorem Engine.filled_bytes (filling : e.ecnt.toNat ≠ 0) (small : e.ecnt.toNat ≤ 191)
    (enough : 192 ≤ e.ecnt.toNat + data.length) :
    bufferSlice (e.filled data) 0 192 = (e.buffered ++ data).take 192 := by
  have length := Engine.buffered_length (e := e) (by omega)
  have count : e.ecnt.toNat + (data.take (192 - e.ecnt.toNat)).length = 192 := by
    rw [List.length_take]
    omega
  have fill := bufferSlice_fill e.ebuf e.ecnt.toNat (data.take (192 - e.ecnt.toNat)) count.le
  rw [count] at fill
  rw [Engine.filled, if_neg filling, Engine.fillCount, if_neg filling, fill, List.take_append, length,
    List.take_of_length_le (l := e.buffered) (by omega), Engine.buffered]

/-- Paths (b) and (c): the live state absorbs the blocks of the completed buffer. -/
theorem Engine.absorbed_eq (small : e.ecnt.toNat ≤ 191) (enough : 192 ≤ e.ecnt.toNat + data.length) :
    e.absorbed data = mixBlocks e.bufferBlocks (e.buffered ++ data) e.liveState := by
  unfold Engine.absorbed Engine.bufferBlocks
  split
  · rfl
  · next filling =>
    have bytes := Engine.filled_bytes filling small enough
    rw [bufferSlice_eq_slice _ (show 96 ≤ 192 by omega), bufferSlice_eq_slice _ (Nat.le_refl 192), bytes,
      mixBlocks_congr 2 (b := (e.buffered ++ data).take 192) _ (by simp)]
    simp only [mixBlocks]
    rw [slice_drop]

theorem Engine.bufferBlocks_le (small : e.ecnt.toNat ≤ 191) (enough : 192 ≤ e.ecnt.toNat + data.length) :
    96 * e.bufferBlocks ≤ (e.buffered ++ data).length := by
  rw [List.length_append, Engine.buffered_length (by omega)]
  unfold Engine.bufferBlocks
  split <;> omega

/-- What path (e) keeps: the bytes after the whole blocks of the buffered bytes followed by the new ones. -/
def Engine.kept (e : Engine) (data : List Byte) : List Byte :=
  (e.buffered ++ data).drop (96 * ((e.buffered ++ data).length / 96))

theorem Engine.kept_length (e : Engine) (data : List Byte) :
    (e.kept data).length = (e.buffered ++ data).length % 96 := by
  rw [Engine.kept, List.length_drop]
  omega

/-- Paths (b) to (e) at once: the live state absorbs every whole block of the buffered bytes followed by the new ones,
and the rest goes to the start of the buffer. -/
theorem Engine.absorb_eq (small : e.ecnt.toNat ≤ 191) (enough : 192 ≤ e.ecnt.toNat + data.length) :
    e.absorb data =
      { h := mixBlocks ((e.buffered ++ data).length / 96) (e.buffered ++ data) e.liveState
        elen := e.lengthAfter data
        ecnt := BitVec.ofNat 8 (e.kept data).length
        ebuf := fillBuffer (e.filled data) 0 (e.kept data) } := by
  have le := Engine.bufferBlocks_le small enough
  have blocks : e.bufferBlocks + ((e.buffered ++ data).length - 96 * e.bufferBlocks) / 96 =
      (e.buffered ++ data).length / 96 := by omega
  have rest : (data.drop e.fillCount).drop (96 * ((data.drop e.fillCount).length / 96)) = e.kept data := by
    rw [Engine.direct_eq small, List.length_drop, List.drop_drop, ← Nat.mul_add, blocks, Engine.kept]
  simp only [Engine.absorb, rest, Engine.absorbed_eq small enough]
  rw [Engine.direct_eq small, ← mixBlocks_add, List.length_drop, blocks]

theorem Engine.absorb_ecnt (small : e.ecnt.toNat ≤ 191) (enough : 192 ≤ e.ecnt.toNat + data.length) :
    (e.absorb data).ecnt.toNat = (e.kept data).length := by
  have length := e.kept_length data
  rw [Engine.absorb_eq small enough]
  exact Nat.mod_eq_of_lt (by omega)

theorem Engine.absorb_buffered (small : e.ecnt.toNat ≤ 191) (enough : 192 ≤ e.ecnt.toNat + data.length) :
    (e.absorb data).buffered = e.kept data := by
  have length := e.kept_length data
  rw [Engine.buffered, Engine.absorb_ecnt small enough, Engine.absorb_eq small enough]
  exact bufferSlice_fill_zero _ _ (by omega)

/-- Behind the kept bytes the buffer is as the fill of path (c) left it. -/
theorem Engine.absorb_stale (small : e.ecnt.toNat ≤ 191) (enough : 192 ≤ e.ecnt.toNat + data.length) (j : Fin 192)
    (behind : (e.absorb data).ecnt.toNat ≤ j.val) :
    (e.absorb data).ebuf[j] =
      if e.ecnt.toNat ≠ 0 ∧ e.ecnt.toNat ≤ j.val then data.getD (j.val - e.ecnt.toNat) 0 else e.ebuf[j] := by
  have stale : (e.absorb data).ebuf[j] = (e.filled data)[j] := by
    rw [Engine.absorb_ecnt small enough] at behind
    rw [Engine.absorb_eq small enough]
    exact (fillBuffer_getElem _ _ _ _ j.isLt).trans (if_neg (by omega))
  rw [stale, Engine.filled]
  by_cases empty : e.ecnt.toNat = 0
  · simp [empty]
  · have count : (data.take e.fillCount).length = 192 - e.ecnt.toNat := by
      rw [List.length_take, Engine.fillCount, if_neg empty]
      omega
    rw [if_neg empty, Fin.getElem_fin, fillBuffer_getElem, count]
    by_cases filled : e.ecnt.toNat ≤ j.val
    · rw [if_pos ⟨filled, by omega⟩, if_pos ⟨empty, filled⟩, Engine.fillCount, if_neg empty,
        List.getD_eq_getElem?_getD, List.getD_eq_getElem?_getD, List.getElem?_take_of_lt (by omega)]
    · rw [if_neg (by omega), if_neg (by omega), Fin.getElem_fin]

theorem Engine.update_of_le (enough : 192 ≤ e.ecnt.toNat + data.length) : e.update data = e.absorb data :=
  if_neg (by omega)

/-- Settles O36: the engine that `UPDATE` writes is that of paths (b) to (e), in terms of the buffered bytes followed by
the new ones. -/
theorem updateAbsorbsBlocksInOrder : Obligations.UpdateAbsorbsBlocksInOrder := by
  intro s n m operand small enough all live
  have run := exec_update_ok operand
  rw [Engine.update_of_le enough] at run
  have eq := Engine.absorb_eq small enough
  exact ⟨_, run, rfl, (Engine.absorb_ecnt small enough).trans (Engine.kept_length _ _), congrArg Engine.h eq,
    Engine.absorb_buffered small enough, Engine.lengthAfter_toNat _ _, Engine.absorb_stale small enough⟩

/-! ### The invariant R162 -/

/-- Below and from 192 bytes alike: the live state has absorbed the first `p` bytes of the message, whole blocks, and
the others are buffered. -/
structure Engine.Absorbed (e : Engine) (s1 s2 : Word) (m : List Byte) (p : Nat) : Prop where
  small : e.ecnt.toNat ≤ 191
  total : p + e.ecnt.toNat = m.length
  whole : p % 96 = 0
  buffered : e.buffered = m.drop p
  state : e.liveState = mixBlocks (p / 96) m (seedState s1 s2)

theorem Engine.Holds.absorbed (h : e.Holds s1 s2 m) : e.Absorbed s1 s2 m (m.length - e.ecnt.toNat) := by
  obtain ⟨elen, small, short, long⟩ := h
  by_cases below : m.length < 192
  · obtain ⟨ecnt, bytes, h0, h1⟩ := short below
    rw [Nat.sub_eq_zero_of_le ecnt.ge]
    refine ⟨small, by omega, rfl, bytes, ?_⟩
    rw [Engine.liveState, if_pos (by omega), h0, h1]
    rfl
  · obtain ⟨count, whole, bytes, state⟩ := long (by omega)
    refine ⟨small, by omega, whole, bytes, ?_⟩
    rw [Engine.liveState, if_neg (by omega)]
    exact state

/-- Blocks of a message that starts `p` bytes in, after the blocks before them. -/
theorem mixBlocks_drop {p : Nat} (whole : p % 96 = 0) (k : Nat) (m : List Byte) (h : Vector Word 12) :
    mixBlocks k (m.drop p) (mixBlocks (p / 96) m h) = mixBlocks (p / 96 + k) m h := by
  rw [mixBlocks_add, show 96 * (p / 96) = p by omega]

/-- The first blocks of a message are those of a longer one. -/
theorem mixBlocks_append {k : Nat} (enough : 96 * k ≤ m.length) (d : List Byte) (h : Vector Word 12) :
    mixBlocks k (m ++ d) h = mixBlocks k m h :=
  mixBlocks_congr k h (List.take_append_of_le_length enough)

/-- New bytes behind the buffered ones are the unabsorbed bytes of the longer message. -/
theorem Engine.Absorbed.buffered_append {p : Nat} (h : e.Absorbed s1 s2 m p) (d : List Byte) :
    e.buffered ++ d = (m ++ d).drop p := by
  have total := h.total
  rw [h.buffered, List.drop_append_of_le_length (by omega)]

theorem Engine.Absorbed.state_append {p : Nat} (h : e.Absorbed s1 s2 m p) (d : List Byte) :
    e.liveState = mixBlocks (p / 96) (m ++ d) (seedState s1 s2) := by
  have total := h.total
  rw [h.state, mixBlocks_append (by omega)]

theorem Engine.Holds.update_elen (h : e.Holds s1 s2 m) (bound : (m ++ d).length < 2 ^ 64) :
    (e.update d).elen.toNat = (m ++ d).length := by
  obtain ⟨elen, -⟩ := h
  rw [List.length_append] at bound ⊢
  rw [Engine.update_elen, Engine.lengthAfter_toNat, elen, Nat.mod_eq_of_lt bound]

/-- Path (a) keeps the invariant: nothing is absorbed, and the counts grow with the message. -/
theorem Engine.Holds.update_of_lt (h : e.Holds s1 s2 m) (short : e.ecnt.toNat + d.length < 192)
    (bound : (m ++ d).length < 2 ^ 64) : (e.update d).Holds s1 s2 (m ++ d) := by
  have absorbed := h.absorbed
  have elen := h.update_elen bound
  obtain ⟨-, small, below, above⟩ := h
  rw [Engine.update_of_lt short] at elen ⊢
  have ecnt := Engine.buffer_ecnt short
  have bytes : (e.buffer d).buffered = (m ++ d).drop (m.length - e.ecnt.toNat) :=
    (Engine.buffer_buffered short).trans (absorbed.buffered_append d)
  have total := absorbed.total
  have same : (m ++ d).length - (e.buffer d).ecnt.toNat = m.length - e.ecnt.toNat := by
    rw [List.length_append, ecnt]
    omega
  rw [Engine.Holds, same, ← Engine.buffered, bytes, List.length_append, ecnt]
  rw [List.length_append] at elen
  refine ⟨elen, by omega, fun shorter => ?_, fun longer => ?_⟩
  · obtain ⟨full, -, h0, h1⟩ := below (by omega)
    exact ⟨by omega, by rw [full, Nat.sub_self, List.drop_zero], h0, h1⟩
  · have long : 192 ≤ m.length := by
      by_contra less
      have := (below (by omega)).1
      omega
    obtain ⟨count, whole, -, state⟩ := above long
    refine ⟨by omega, whole, rfl, ?_⟩
    rw [mixBlocks_append (by omega)]
    exact state

/-- Paths (b) to (e) keep the invariant: the live state goes on through the whole blocks of the longer message. -/
theorem Engine.Holds.update_of_le (h : e.Holds s1 s2 m) (enough : 192 ≤ e.ecnt.toNat + d.length)
    (bound : (m ++ d).length < 2 ^ 64) : (e.update d).Holds s1 s2 (m ++ d) := by
  obtain ⟨p, absorbed⟩ : ∃ p, e.Absorbed s1 s2 m p := ⟨_, h.absorbed⟩
  have elen := h.update_elen bound
  obtain ⟨small, total, whole, -, -⟩ := id absorbed
  rw [Engine.update_of_le enough] at elen ⊢
  have all := absorbed.buffered_append d
  have length : (e.buffered ++ d).length = (m ++ d).length - p := by rw [all, List.length_drop]
  have ecnt : (e.absorb d).ecnt.toNat = ((m ++ d).length - p) % 96 := by
    rw [Engine.absorb_ecnt small enough, Engine.kept_length, length]
  have position : p + 96 * (((m ++ d).length - p) / 96) = (m ++ d).length - (e.absorb d).ecnt.toNat := by
    rw [ecnt, List.length_append]
    omega
  have long : 192 + p ≤ (m ++ d).length := by
    rw [List.length_append]
    omega
  refine ⟨elen, by omega, fun shorter => by omega, fun _ => ⟨by omega, by omega, ?_, ?_⟩⟩
  · rw [← Engine.buffered, Engine.absorb_buffered small enough, Engine.kept, length, all, List.drop_drop, position]
  · have blocks : p / 96 + ((m ++ d).length - p) / 96 = ((m ++ d).length - (e.absorb d).ecnt.toNat) / 96 := by omega
    rw [← blocks, ← mixBlocks_drop whole, ← absorbed.state_append d, ← length, ← all]
    exact congrArg Engine.h (Engine.absorb_eq small enough)

/-- Every `UPDATE` carries the invariant to the longer message (R162). -/
theorem Engine.Holds.update (h : e.Holds s1 s2 m) (bound : (m ++ d).length < 2 ^ 64) :
    (e.update d).Holds s1 s2 (m ++ d) := by
  by_cases short : e.ecnt.toNat + d.length < 192
  · exact h.update_of_lt short bound
  · exact h.update_of_le (by omega) bound

/-- After `INIT` the engine holds the empty message. -/
theorem Engine.init_holds (s1 s2 : Word) : (Engine.init s1 s2).Holds s1 s2 [] :=
  ⟨rfl, Nat.zero_le _, fun _ => ⟨rfl, rfl, rfl, rfl⟩, nofun⟩

theorem Engine.reset_eq_init : Engine.reset = Engine.init 0 0 := rfl

theorem Engine.reset_holds : Engine.reset.Holds 0 0 [] := Engine.reset_eq_init ▸ Engine.init_holds 0 0

/-- Settles O37: reset and `INIT` hold the empty message, and `UPDATE` writes the updated engine. -/
theorem updateKeepsTheEngineInvariant : Obligations.UpdateKeepsTheEngineInvariant :=
  ⟨Engine.reset_holds, fun s => ⟨_, exec_init s, Engine.init_holds _ _⟩,
    fun _ _ _ _ _ _ holds operand bound => ⟨_, exec_update_ok operand, holds.update bound⟩⟩

/-! ### `FINAL` -/

/-- Below 192 bytes `FINAL` hashes the buffered bytes by the Short path under the seeds in `H0`, `H1`. -/
theorem Engine.final_of_lt (short : e.elen.toNat < 192) (count : e.ecnt.toNat = e.elen.toNat) :
    e.final = shortHash e.buffered e.h[0] e.h[1] := by
  rw [Engine.final, if_pos short, Engine.buffered, count]

/-- From 192 bytes on `FINAL` goes on through the buffered bytes as the Long path goes through a message. -/
theorem Engine.final_of_le (long : 192 ≤ e.elen.toNat) (small : e.ecnt.toNat ≤ 191) :
    e.final =
      longFinish (e.buffered.drop (96 * (e.ecnt.toNat / 96))) (mixBlocks (e.ecnt.toNat / 96) e.buffered e.h) := by
  rw [Engine.final, if_neg (by omega)]
  by_cases block : 96 ≤ e.ecnt.toNat
  · have tail : bufferSlice e.ebuf 96 e.ecnt.toNat = e.buffered.drop 96 := by
      rw [bufferSlice_eq_slice _ (Nat.le_refl _), slice, ← Engine.buffered, List.take_of_length_le]
      rw [List.length_drop, Engine.buffered_length (by omega)]
    rw [if_pos block, show e.ecnt.toNat / 96 = 1 by omega, tail, bufferSlice_eq_slice _ block]
    rfl
  · rw [if_neg block, show e.ecnt.toNat / 96 = 0 by omega]
    rfl

/-- An engine that holds a message finishes with its one-shot digest. -/
theorem Engine.Holds.final (h : e.Holds s1 s2 m) : e.final = hash128 m s1 s2 := by
  obtain ⟨p, absorbed⟩ : ∃ p, e.Absorbed s1 s2 m p := ⟨_, h.absorbed⟩
  obtain ⟨elen, small, below, -⟩ := h
  by_cases short : m.length < 192
  · obtain ⟨count, bytes, h0, h1⟩ := below short
    rw [Engine.final_of_lt (by omega) (by omega), Engine.buffered, bytes, h0, h1, hash128, if_pos short]
  · obtain ⟨-, total, whole, buffered, state⟩ := absorbed
    rw [Engine.liveState, if_neg (by omega)] at state
    rw [Engine.final_of_le (by omega) small, hash128, if_neg short, longHash, state, buffered, mixBlocks_drop whole,
      List.drop_drop, show p / 96 + e.ecnt.toNat / 96 = m.length / 96 by omega,
      show p + 96 * (e.ecnt.toNat / 96) = 96 * (m.length / 96) by omega]

/-- Settles O39: `FINAL` loads the digest of the engine. -/
theorem finalHashesTheAbsorbedMessage : Obligations.FinalHashesTheAbsorbedMessage := by
  intro s s1 s2 m holds
  rw [exec_final, holds.final]
  rfl

/-! ### Chunk invariance -/

/-- Updates with the pieces one after another hold the joined message. -/
theorem Engine.Holds.foldl_update (pieces : List (List Byte)) (h : e.Holds s1 s2 m)
    (bound : (m ++ pieces.flatten).length < 2 ^ 64) :
    (pieces.foldl Engine.update e).Holds s1 s2 (m ++ pieces.flatten) := by
  induction pieces generalizing e m with
  | nil => simpa using h
  | cons d pieces ih =>
    rw [List.flatten_cons, ← List.append_assoc] at bound ⊢
    exact ih (h.update (by rw [List.length_append] at bound; omega)) bound

/-- Settles O40: the invariant is carried from `INIT` through the pieces to the digest. -/
theorem chunkedUpdatesEqualOneShot : Obligations.ChunkedUpdatesEqualOneShot := by
  intro s1 s2 pieces bound
  exact ((Engine.init_holds s1 s2).foldl_update pieces bound).final

/-- A step that runs no `INIT`, no `UPDATE` and no reset keeps the engine. -/
theorem step_keeps_eng (h : step s = .next t) (noInit : s.nextCommand ≠ some .init)
    (noUpdate : ∀ n, s.nextCommand ≠ some (.update n)) (noReset : ¬ s.nextIsReset) : t.eng = s.eng := by
  obtain ⟨i, w, rest, command, -, ht⟩ | ⟨w, rest, -, rfl⟩ | reset | kept := step_kinds h
  · by_contra changed
    have writes := exec_eng_changed ht changed
    cases i with
    | init => exact noInit command
    | update n => exact noUpdate n command
    | _ => cases writes
  · rfl
  · exact absurd reset noReset
  · exact kept.eng

/-- In every state of a run the engine holds the message fed so far. -/
theorem EngineStream.holds (run : EngineStream s1 s2 m s) (bound : m.length < 2 ^ 64) : s.eng.Holds s1 s2 m := by
  induction run with
  | start command seed1 seed2 h =>
    obtain ⟨w, rest, command⟩ := step_nextCommand command
    obtain rfl := Host.Outcome.next.inj (command.symm.trans h)
    exact seed1 ▸ seed2 ▸ Engine.init_holds _ _
  | powerOn zero1 zero2 =>
    subst zero1 zero2
    exact Engine.reset_holds
  | reset event zero1 zero2 h =>
    obtain ⟨rest, event⟩ := step_nextIsReset event
    obtain rfl := Host.Outcome.next.inj (event.symm.trans h)
    subst zero1 zero2
    exact Engine.reset_holds
  | feed run command operand h ih =>
    obtain ⟨w, rest, command⟩ := step_nextCommand command
    obtain rfl := Host.Outcome.next.inj ((command.trans (exec_update_ok operand)).symm.trans h)
    exact (ih (by rw [List.length_append] at bound; omega)).update bound
  | refusedFeed run command operand h ih =>
    obtain ⟨w, rest, command⟩ := step_nextCommand command
    obtain rfl := Host.Outcome.next.inj ((command.trans (exec_update_error operand)).symm.trans h)
    exact ih bound
  | other run noInit noUpdate noReset h ih => exact step_keeps_eng h noInit noUpdate noReset ▸ ih bound

/-- Settles O41: the engine holds the message in every state of the run, and `FINAL` loads its digest. -/
theorem chunkInvarianceOfRuns : Obligations.ChunkInvarianceOfRuns := by
  intro s1 s2 m s run bound command
  obtain ⟨w, rest, command⟩ := step_nextCommand command
  exact ⟨_, command, (run.holds bound).final, rfl, rfl⟩

/-! ### Stale bytes -/

/-- The buffered bytes of two agreeing engines are the same. -/
theorem Engine.agrees.buffered (same : a.agrees b) : b.buffered = a.buffered := by
  obtain ⟨-, -, bytes, -⟩ := same
  exact bytes.symm

theorem Engine.agrees.liveState (same : a.agrees b) : b.liveState = a.liveState := by
  obtain ⟨elen, -, -, h0, h1, h⟩ := same
  rw [Engine.liveState, Engine.liveState, ← elen, h0, h1]
  split
  · rfl
  · rw [h (by omega)]

theorem Engine.agrees.final (same : a.agrees b) (reachable : a.coherent) : a.final = b.final := by
  have buffered := same.buffered
  obtain ⟨elen, ecnt, -, h0, h1, h⟩ := same
  obtain ⟨small, count⟩ := reachable
  by_cases short : a.elen.toNat < 192
  · rw [Engine.final_of_lt short (count short), Engine.final_of_lt (elen ▸ short) (elen ▸ ecnt ▸ count short),
      buffered, h0, h1]
  · have long : 192 ≤ a.elen.toNat := by omega
    rw [Engine.final_of_le long small, Engine.final_of_le (elen ▸ long) (ecnt ▸ small), buffered, ← ecnt, h long]

/-- Path (a) on two agreeing engines: the buffering phase lasts as long as the total stays below 192. -/
theorem Engine.agrees.buffer (same : a.agrees b) (reachable : a.coherent) (short : a.ecnt.toNat + m.length < 192) :
    (a.buffer m).agrees (b.buffer m) := by
  have buffered := same.buffered
  obtain ⟨elen, ecnt, -, h0, h1, h⟩ := same
  obtain ⟨-, count⟩ := reachable
  refine ⟨congrArg (· + BitVec.ofNat 64 m.length) elen, by rw [Engine.buffer, Engine.buffer, ecnt], ?_, h0, h1,
    fun long => h ?_⟩
  · show (a.buffer m).buffered = (b.buffer m).buffered
    rw [Engine.buffer_buffered short, Engine.buffer_buffered (ecnt ▸ short), buffered]
  · by_contra below
    have counted := count (by omega)
    have total : (a.buffer m).elen.toNat = (a.elen.toNat + m.length) % 2 ^ 64 := Engine.lengthAfter_toNat a m
    omega

/-- Paths (b) to (e) on two agreeing engines: they read the live state and the buffered bytes alone. -/
theorem Engine.agrees.absorb (same : a.agrees b) (reachable : a.coherent) (enough : 192 ≤ a.ecnt.toNat + m.length) :
    (a.absorb m).agrees (b.absorb m) := by
  obtain ⟨small, -⟩ := reachable
  obtain ⟨elen, ecnt, -⟩ := id same
  obtain ⟨small', enough'⟩ : b.ecnt.toNat ≤ 191 ∧ 192 ≤ b.ecnt.toNat + m.length := ecnt ▸ ⟨small, enough⟩
  have kept : b.kept m = a.kept m := by rw [Engine.kept, Engine.kept, same.buffered]
  have state : (b.absorb m).h = (a.absorb m).h := by
    rw [Engine.absorb_eq small enough, Engine.absorb_eq small' enough', same.buffered, same.liveState]
  refine ⟨congrArg (· + BitVec.ofNat 64 m.length) elen, ?_, ?_, by rw [state], by rw [state], fun _ => state.symm⟩
  · rw [Engine.absorb_eq small enough, Engine.absorb_eq small' enough', kept]
  · show (a.absorb m).buffered = (b.absorb m).buffered
    rw [Engine.absorb_buffered small enough, Engine.absorb_buffered small' enough', kept]

/-- Settles O42: `FINAL` and both kinds of `UPDATE` read the counts, the buffered bytes and the live state alone. -/
theorem staleBufferBytesNeverMatter : Obligations.StaleBufferBytesNeverMatter := by
  intro a b reachable same
  refine ⟨same.final reachable, fun m => ?_⟩
  obtain ⟨-, ecnt, -⟩ := id same
  by_cases short : a.ecnt.toNat + m.length < 192
  · rw [Engine.update_of_lt short, Engine.update_of_lt (ecnt ▸ short)]
    exact same.buffer reachable short
  · have enough : 192 ≤ a.ecnt.toNat + m.length := by omega
    rw [Engine.update_of_le enough, Engine.update_of_le (ecnt ▸ enough)]
    exact same.absorb reachable enough

end Sys2Proof.Machine
end

section
/-! SUPPORT. The mixer primitives of 40_mixer_primitives.md: `ROTL` and its words (R101), the loops of `ShortMix` and
`ShortEnd` as their lines (R102, R103), the commands on the working registers (R104 to R106), and the two properties of
the mixing functions (R107). With the statements about them. -/

namespace Sys2Proof.Machine

variable {s t : State} {n : Nat}

/-! ### `ROTL` -/

/-- Rotating by `k` and then by the rest of the word restores it. -/
theorem rotl64_rotl64_sub (x : Word) (k : Nat) : rotl64 (rotl64 x k) (64 - k % 64) = x := by
  refine BitVec.eq_of_getLsbD_eq fun i hi => ?_
  rw [getLsbD_rotl64 _ _ hi, getLsbD_rotl64 _ _ (Nat.mod_lt _ (by decide))]
  congr 1
  omega

theorem setAt_setAt (v : Vector Word n) (i : Fin n) (x y : Word) : setAt (setAt v i x) i y = setAt v i y := by
  simp [setAt]

theorem setAt_self (v : Vector Word n) (i : Fin n) : setAt v i v[i] = v := by
  simp [setAt]

theorem ofNat_toNat_of_fin12 (r : Fin 12) : (BitVec.ofNat 4 r.val).toNat = r.val :=
  Nat.mod_eq_of_lt (by omega)

/-- A word below `2 ^ k` meets no word shifted up by `k`. -/
theorem and_shiftLeft_eq_zero {x : Word} {k : Nat} (low : x.toNat < 2 ^ k) (y : Word) : x &&& (y <<< k) = 0 := by
  refine BitVec.eq_of_getLsbD_eq fun j _ => ?_
  rw [BitVec.getLsbD_and, BitVec.getLsbD_shiftLeft]
  by_cases below : j < k
  · simp [below]
  · have clear : x.getLsbD j = false :=
      Nat.testBit_lt_two_pow (low.trans_le (Nat.pow_le_pow_right (by decide) (Nat.le_of_not_lt below)))
    simp [clear]

/-- The fields of a `ROTL` word meet in no bit, so their union is their sum (R90). -/
theorem packWord_rotl_eq_add (reg : BitVec 4) (sh : BitVec 6) :
    packWord 0x10 false reg sh = (0x10 : Word) + (reg.setWidth 64 <<< 16) + (sh.setWidth 64 <<< 24) := by
  have low : ((0x10 : Word) ||| reg.setWidth 64 <<< 16).toNat < 2 ^ 24 := by revert reg; decide
  rw [BitVec.add_eq_or_of_and_eq_zero (0x10 : Word) _ (and_shiftLeft_eq_zero (by decide) _),
    BitVec.add_eq_or_of_and_eq_zero _ _ (and_shiftLeft_eq_zero low _)]
  rfl

/-- The words of `ROTL` and their spelling (R88, R90; log 11). -/
theorem rotl_encodedAs (r : Fin 12) (sh : BitVec 6) :
    EncodedAs (.rotl (BitVec.ofNat 4 r.val) sh) (0x10 + (BitVec.ofNat 64 r.val <<< 16) + (sh.setWidth 64 <<< 24))
      ("ROTL V" ++ toString r.val ++ ", " ++ toString sh.toNat) := by
  have number := ofNat_toNat_of_fin12 r
  have legal : WellFormed (.rotl (BitVec.ofNat 4 r.val) sh) := decide_eq_true (by rw [regLegal, number]; omega)
  have field : ∀ r : Fin 12, (BitVec.ofNat 4 r.val).setWidth 64 = BitVec.ofNat 64 r.val := by decide
  have word : encode (.rotl (BitVec.ofNat 4 r.val) sh) =
      0x10 + (BitVec.ofNat 64 r.val <<< 16) + (sh.setWidth 64 <<< 24) :=
    field r ▸ packWord_rotl_eq_add (BitVec.ofNat 4 r.val) sh
  exact ⟨word, word ▸ decodeOfEncodeIsTheCommand _ legal, by rw [asmText, number]⟩

/-- Any other word of the opcode is illegal (R84, R87). -/
theorem rotl_illegalBeside :
    IllegalBeside 0x10 (fun w => w &&& 0xFFFFFFFFC0F0FFFF = 0x10 ∧ (w.extractLsb' 16 4).toNat ≤ 11) := by
  refine illegalBeside_of_legalWord fun w opcode legal => ⟨?_, legal.2 opcode⟩
  obtain ⟨m, hm, reserved⟩ := ((legalWord_iff w).mp legal).1
  rw [opcode, show reservedMasks 0x10 = [~~~rotlUsed] by decide, List.mem_singleton] at hm
  have row : (⟨"ROTL", 0x10, 0xFFFFFFFFC0F0FFFF⟩ : OpcodeRow) ∈ opcodeRows := by simp [opcodeRows]
  refine (hits_iff row w).mpr ⟨opcode.symm, ?_⟩
  rw [show (0xFFFFFFFFC0F0FFFF : Word) &&& ~~~plainUsed = ~~~rotlUsed by decide, ← hm, reserved]

/-- Settles O24: the word is packed from its fields, and the register written is rotated by the amount. -/
theorem rotlRotatesOneRegister : Obligations.RotlRotatesOneRegister := by
  refine ⟨rotl_encodedAs, rotl_illegalBeside, fun r sh s => ?_, fun reg sh _ absent => dif_neg (by omega), by decide⟩
  refine ⟨_, exec_rotl r sh s, rfl, setAt_same _ _ _, ?_, fun j hj => setAt_other _ _ hj, fun zero => ?_,
    fun nonzero => ⟨_, exec_rotl r _ _, ?_⟩⟩
  · exact (setAt_same _ _ _).trans (rotl64_eq_rotateLeft _ _)
  · subst zero
    exact setAt_self s.v r
  · have amount : (BitVec.ofNat 6 (64 - sh.toNat)).toNat = 64 - sh.toNat % 64 := by
      have positive : sh.toNat ≠ 0 := fun zero => nonzero (BitVec.eq_of_toNat_eq zero)
      rw [BitVec.toNat_ofNat]
      omega
    simp only [State.withErr_v, State.withV_v]
    rw [setAt_same, amount, rotl64_rotl64_sub, setAt_setAt, setAt_self]

/-! ### The loops of the Short path as their lines -/

/-- A statement about four words holds when it holds of every literal vector. -/
theorem vector4_cases {motive : Vector Word 4 → Prop} (literal : ∀ a b c d, motive #v[a, b, c, d])
    (q : Vector Word 4) : motive q := by
  have elements : q = #v[q[0], q[1], q[2], q[3]] := by
    ext i hi
    interval_cases i <;> rfl
  exact elements ▸ literal ..

/-- A step of `ShortMix` on four words, by the word it rotates (R102). -/
theorem shortMixStep_lines (a b c d : Word) (r : Nat) :
    shortMixStep #v[a, b, c, d] 2 r = #v[a ^^^ (rotl64 c r + d), b, rotl64 c r + d, d] ∧
    shortMixStep #v[a, b, c, d] 3 r = #v[a, b ^^^ (rotl64 d r + a), c, rotl64 d r + a] ∧
    shortMixStep #v[a, b, c, d] 0 r = #v[rotl64 a r + b, b, c ^^^ (rotl64 a r + b), d] ∧
    shortMixStep #v[a, b, c, d] 1 r = #v[a, rotl64 b r + c, c, d ^^^ (rotl64 b r + c)] :=
  ⟨rfl, rfl, rfl, rfl⟩

/-- The twelve steps of `ShortMix`: the word each rotates, and its amount. -/
theorem shortMix_eq_steps (q : Vector Word 4) : shortMix q =
    [(2, 50), (3, 52), (0, 30), (1, 41), (2, 54), (3, 48), (0, 38), (1, 37), (2, 62), (3, 34), (0, 5), (1, 36)].foldl
      (fun q (step : Fin 4 × Nat) => shortMixStep q step.1 step.2) q := rfl

/-- The loop of `ShortMix` runs the twelve lines of R102. -/
theorem shortMix_eq_spelled (q : Vector Word 4) : shortMix q = shortMixSpelled q[0] q[1] q[2] q[3] := by
  cases q using vector4_cases with
  | literal a b c d =>
    change _ = shortMixSpelled a b c d
    simp only [shortMix_eq_steps, List.foldl, shortMixStep_lines, shortMixSpelled]

/-- A step of `ShortEnd` on four words, by the word it writes (R103). -/
theorem shortEndStep_lines (a b c d : Word) (r : Nat) :
    shortEndStep #v[a, b, c, d] 3 r = #v[a, b, rotl64 c r, (d ^^^ c) + rotl64 c r] ∧
    shortEndStep #v[a, b, c, d] 0 r = #v[(a ^^^ d) + rotl64 d r, b, c, rotl64 d r] ∧
    shortEndStep #v[a, b, c, d] 1 r = #v[rotl64 a r, (b ^^^ a) + rotl64 a r, c, d] ∧
    shortEndStep #v[a, b, c, d] 2 r = #v[a, rotl64 b r, (c ^^^ b) + rotl64 b r, d] :=
  ⟨rfl, rfl, rfl, rfl⟩

/-- The eleven steps of `ShortEnd`: the word each writes, and its amount. -/
theorem shortEnd_eq_steps (q : Vector Word 4) : shortEnd q =
    [(3, 15), (0, 52), (1, 26), (2, 51), (3, 28), (0, 9), (1, 47), (2, 54), (3, 32), (0, 25), (1, 63)].foldl
      (fun q (step : Fin 4 × Nat) => shortEndStep q step.1 step.2) q := rfl

/-- The loop of `ShortEnd` runs the eleven lines of R103. -/
theorem shortEnd_eq_spelled (q : Vector Word 4) : shortEnd q = shortEndSpelled q[0] q[1] q[2] q[3] := by
  cases q using vector4_cases with
  | literal a b c d =>
    change _ = shortEndSpelled a b c d
    simp only [shortEnd_eq_steps, List.foldl, shortEndStep_lines, shortEndSpelled]

theorem lowV_setLowV (v : Vector Word 12) (q : Vector Word 4) : lowV (setLowV v q) = q := by
  ext i hi
  interval_cases i <;> simp [lowV, setLowV, setAt]

theorem setLowV_high (v : Vector Word 12) (q : Vector Word 4) {j : Fin 12} (high : 4 ≤ j.val) :
    (setLowV v q)[j] = v[j] := by
  have other (i : Fin 12) (low : i.val < 4) : j ≠ i := fun same => by omega
  simp only [setLowV]
  rw [setAt_other _ _ (other 3 (by decide)), setAt_other _ _ (other 2 (by decide)),
    setAt_other _ _ (other 1 (by decide)), setAt_other _ _ (other 0 (by decide))]

/-- Settles O25: each command writes the low words with its loop, which is its lines. -/
theorem shortMixAndShortEndWrittenOut : Obligations.ShortMixAndShortEndWrittenOut := fun _ =>
  ⟨⟨_, rfl, rfl, (lowV_setLowV _ _).trans (shortMix_eq_spelled _), fun _ => setLowV_high _ _⟩,
    ⟨_, rfl, rfl, (lowV_setLowV _ _).trans (shortEnd_eq_spelled _), fun _ => setLowV_high _ _⟩⟩

/-! ### `MIX`, `ENDPARTIAL` and `END` -/

theorem exec_mix (s : State) : exec .mix s = .next ((s.withV (mix s.w s.v)).withErr 0) := rfl

theorem exec_endPartial (s : State) : exec .endPartial s = .next ((s.withV (endPartial s.v)).withErr 0) := rfl

theorem exec_endMix (s : State) : exec .endMix s = .next ((s.withV (endMix s.w s.v)).withErr 0) := rfl

/-- Settles O26: the loop of the command is its lines. -/
theorem mixWrittenOut : Obligations.MixWrittenOut := fun _ => by
  rw [exec_mix, mix_eq_mixLines]
  rfl

/-- `End` adds the data word by word, then runs three rounds (R106). -/
theorem endMix_eq_endPartial (d h : Vector Word 12) :
    endMix d h = endPartial (endPartial (endPartial (h.zipWith (· + ·) d))) := by
  simp only [endMix_eq_endPartialLines, endPartial_eq_endPartialLines]

theorem withV_withErr (s : State) (x : Vector Word 12) (code : BitVec 4) :
    (s.withV x).withErr code = { s with v := x, err := code } := rfl

/-- `ERR` is cleared again, and the working registers are the last ones written. -/
theorem withV_withErr_withV (s : State) (a b : Vector Word 12) :
    (((s.withV a).withErr 0).withV b).withErr 0 = (s.withV b).withErr 0 := rfl

/-- Three `ENDPARTIAL` commands run three rounds. -/
theorem exec_endPartial_three {t1 t2 t3 : State} (first : exec .endPartial s = .next t1)
    (second : exec .endPartial t1 = .next t2) (third : exec .endPartial t2 = .next t3) :
    t3 = (s.withV (endPartial (endPartial (endPartial s.v)))).withErr 0 := by
  rw [exec_endPartial] at first
  obtain rfl := Host.Outcome.next.inj first
  rw [exec_endPartial] at second
  obtain rfl := Host.Outcome.next.inj second
  rw [exec_endPartial] at third
  obtain rfl := Host.Outcome.next.inj third
  simp only [State.withErr_v, State.withV_v, withV_withErr_withV]

theorem zipWith_add_zero (v : Vector Word 12) : v.zipWith (· + ·) (Vector.replicate 12 0) = v := by
  ext
  simp

/-- Settles O27: a round is its lines, and `END` is three rounds on the sum, which is `V` itself when `W` is 0. -/
theorem endPartialAndEndWrittenOut : Obligations.EndPartialAndEndWrittenOut := by
  refine ⟨fun s => ?_, fun s t1 t2 t3 first second third => ?_, fun s t1 t2 t3 zero first second third => ?_,
    fun s => ⟨endMix s.w s.v, by rw [exec_endMix, withV_withErr]⟩⟩
  · rw [exec_endPartial, endPartial_eq_endPartialLines]
    rfl
  · rw [exec_endMix, endMix_eq_endPartial, exec_endPartial_three first second third]
    rfl
  · rw [exec_endMix, endMix_eq_endPartial, zero, zipWith_add_zero, exec_endPartial_three first second third]

/-! ### The two properties of the mixing functions -/

/-- Word `i` takes the sum of itself and word `j`. -/
def addFrom (i j : Fin n) (h : Vector Word n) : Vector Word n := setAt h i (h[i] + h[j])

/-- Word `i` takes the exclusive or of itself and word `j`. -/
def xorFrom (i j : Fin n) (h : Vector Word n) : Vector Word n := setAt h i (h[i] ^^^ h[j])

/-- Word `i` is rotated. -/
def rotateAt (i : Fin n) (r : Nat) (h : Vector Word n) : Vector Word n := setAt h i (rotl64 h[i] r)

/-- A write of one word loses nothing when the new word, the others given, determines the old one. -/
theorem setAt_injective {i : Fin n} {g : Vector Word n → Word → Word}
    (others : ∀ x y : Vector Word n, (∀ k, k ≠ i → x[k] = y[k]) → g x = g y)
    (invertible : ∀ x, Function.Injective (g x)) :
    Function.Injective fun h => setAt h i (g h h[i]) := by
  intro x y same
  have word (k : Fin n) : (setAt x i (g x x[i]))[k] = (setAt y i (g y y[i]))[k] := congrArg (·[k]) same
  have other (k : Fin n) (hk : k ≠ i) : x[k] = y[k] := by simpa only [setAt_other _ _ hk] using word k
  have own : x[i] = y[i] := by
    have new := word i
    rw [setAt_same, setAt_same, others x y other] at new
    exact invertible y new
  refine Vector.ext fun k hk => ?_
  by_cases written : ⟨k, hk⟩ = i
  · subst written
    exact own
  · exact other ⟨k, hk⟩ written

theorem addFrom_injective {i j : Fin n} (h : j ≠ i) : Function.Injective (addFrom i j) :=
  setAt_injective (g := fun x a => a + x[j]) (fun _ _ others => by rw [others j h]) fun _ => add_left_injective _

theorem xorFrom_injective {i j : Fin n} (h : j ≠ i) : Function.Injective (xorFrom i j) :=
  setAt_injective (g := fun x a => a ^^^ x[j]) (fun _ _ others => by rw [others j h]) fun _ _ _ =>
    (BitVec.xor_left_inj _).mp

theorem rotl64_injective (r : Nat) : Function.Injective (rotl64 · r) :=
  Function.LeftInverse.injective (g := (rotl64 · (64 - r % 64))) fun x => rotl64_rotl64_sub x r

theorem rotateAt_injective (i : Fin n) (r : Nat) : Function.Injective (rotateAt i r) :=
  setAt_injective (g := fun _ a => rotl64 a r) (fun _ _ _ => rfl) fun _ => rotl64_injective r

theorem addAt_injective (i : Fin n) (x : Word) : Function.Injective (addAt · i x) :=
  setAt_injective (g := fun _ a => a + x) (fun _ _ _ => rfl) fun _ => add_left_injective _

theorem foldl_injective {α β : Type} {f : β → α → β} (step : ∀ a, Function.Injective (f · a)) (l : List α) :
    Function.Injective (l.foldl f) := by
  induction l with
  | nil => exact Function.injective_id
  | cons a l ih => exact ih.comp (step a)

theorem shortMixStep_injective (x : Fin 4) (r : Nat) : Function.Injective (shortMixStep · x r) := by
  have next : x + 1 ≠ x ∧ x ≠ x + 2 := by revert x; decide
  exact (xorFrom_injective next.2).comp ((addFrom_injective next.1).comp (rotateAt_injective x r))

theorem shortEndStep_injective (y : Fin 4) (r : Nat) : Function.Injective (shortEndStep · y r) := by
  have before : y + 3 ≠ y := by revert y; decide
  exact (addFrom_injective before).comp ((rotateAt_injective (y + 3) r).comp (xorFrom_injective before))

theorem mixStep_injective (d : Vector Word 12) (i : Fin 12) : Function.Injective (mixStep d · i) := by
  have apart : i + 10 ≠ i + 2 ∧ i ≠ i + 11 ∧ i + 1 ≠ i + 11 := by revert i; decide
  exact (addFrom_injective apart.2.2).comp ((rotateAt_injective i _).comp ((xorFrom_injective apart.2.1).comp
    ((xorFrom_injective apart.1).comp (addAt_injective i d[i]))))

theorem endPartialStep_injective (j : Fin 12) : Function.Injective (endPartialStep · j) := by
  have apart : j + 1 ≠ j + 11 ∧ j + 11 ≠ j + 2 := by revert j; decide
  exact (rotateAt_injective (j + 1) _).comp ((xorFrom_injective apart.2).comp (addFrom_injective apart.1))

theorem shortMix_injective : Function.Injective shortMix := foldl_injective (fun _ => shortMixStep_injective _ _) _

theorem shortEnd_injective : Function.Injective shortEnd := foldl_injective (fun _ => shortEndStep_injective _ _) _

theorem mix_injective (d : Vector Word 12) : Function.Injective (mix d) := foldl_injective (mixStep_injective d) _

theorem endPartial_injective : Function.Injective endPartial := foldl_injective endPartialStep_injective _

theorem zipWith_add_injective (d : Vector Word 12) :
    Function.Injective fun h : Vector Word 12 => h.zipWith (· + ·) d := by
  intro x y same
  refine Vector.ext fun k hk => ?_
  have word := congrArg (·[k]) same
  simpa using word

theorem endMix_injective (d : Vector Word 12) : Function.Injective (endMix d) := by
  intro x y same
  rw [endMix_eq_endPartial, endMix_eq_endPartial] at same
  exact zipWith_add_injective d (endPartial_injective (endPartial_injective (endPartial_injective same)))

theorem mix_zero : mix (Vector.replicate 12 0) (Vector.replicate 12 0) = Vector.replicate 12 0 := by
  have step : ∀ i, mixStep (Vector.replicate 12 0) (Vector.replicate 12 0) i = Vector.replicate 12 0 := by decide
  exact List.foldl_fixed' step _

theorem endPartial_zero : endPartial (Vector.replicate 12 0) = Vector.replicate 12 0 := by
  have step : ∀ j, endPartialStep (Vector.replicate 12 0) j = Vector.replicate 12 0 := by decide
  exact List.foldl_fixed' step _

theorem endMix_zero : endMix (Vector.replicate 12 0) (Vector.replicate 12 0) = Vector.replicate 12 0 := by
  simp only [endMix_eq_endPartial, zipWith_add_zero, endPartial_zero]

/-- Settles O28: every line of the loops is a write that can be undone, and every step fixes the zero state. -/
theorem mixFunctionsInvertAndFixZero : Obligations.MixFunctionsInvertAndFixZero :=
  ⟨fun _ _ h => shortMix_injective h, fun _ _ h => shortEnd_injective h, fun d _ _ h => mix_injective d h,
    fun _ _ h => endPartial_injective h, fun d _ _ h => endMix_injective d h,
    by decide, by decide, mix_zero, endPartial_zero, endMix_zero⟩

end Sys2Proof.Machine
end

section
/-! SUPPORT. The one-shot hashing commands of 41_mixer_oneshot.md: their outcome on a message (R130, R134 to R138), the
Short algorithm written out (R131, R132), and the engine after reset (70_reset_and_hazards.md R262). With the statements
about them. -/

namespace Sys2Proof.Machine

variable {s t : State} {n : Bool} {m : List Byte}

/-! ### The message and the outcome on it -/

/-- The empty message of a null reference and the bytes of a span inside the memory are the messages (R130). -/
theorem messageOperand_of_message
    (message : (n = true ∧ s.srcLen = 0 ∧ m = []) ∨
      (n = false ∧ s.srcAddr.toNat + s.srcLen.toNat ≤ s.cfg.msgSize ∧
        m = s.msgBytes s.srcAddr.toNat s.srcLen.toNat)) : messageOperand n s = .ok m := by
  obtain ⟨rfl, empty, rfl⟩ | ⟨rfl, inside, rfl⟩ := message
  · exact messageOperand_null empty
  · exact spanOperand_of_inRange inside

/-- A message has `SRC_LEN` bytes. -/
theorem messageOperand_length (h : messageOperand n s = .ok m) : m.length = s.srcLen.toNat := by
  obtain ⟨-, empty, rfl⟩ | ⟨-, -, rfl⟩ := messageOperand_ok h
  · exact empty.symm
  · exact State.spanBytes_length s

theorem onOperand_congr {operand : Except CmdError (List Byte)} {f g : List Byte → State}
    (same : ∀ m, operand = .ok m → f m = g m) : onOperand operand s f = onOperand operand s g := by
  cases operand with
  | ok m => exact congrArg complete (same m rfl)
  | error e => rfl

theorem withDigest_withErr (s : State) (d : Digest) (code : BitVec 4) :
    (s.withDigest d).withErr code = { s with dig1 := d.1, dig2 := d.2, err := code } := rfl

theorem exec_short (operand : messageOperand n s = .ok m) :
    exec (.short n) s = .next ((s.withDigest (shortHash m s.seed1 s.seed2)).withErr 0) := onOperand_ok _ operand

theorem exec_long (operand : messageOperand n s = .ok m) :
    exec (.long n) s = .next ((s.withDigest (longHash m s.seed1 s.seed2)).withErr 0) := onOperand_ok _ operand

theorem exec_hash128 (operand : messageOperand n s = .ok m) :
    exec (.hash128 n) s = .next ((s.withDigest (hash128 m s.seed1 s.seed2)).withErr 0) := onOperand_ok _ operand

theorem exec_hash64 (operand : messageOperand n s = .ok m) :
    exec (.hash64 n) s = .next ((s.withDigest ((hash128 m s.seed1 s.seed1).1, 0)).withErr 0) :=
  onOperand_ok _ operand

theorem exec_hash32 (operand : messageOperand n s = .ok m) :
    exec (.hash32 n) s =
      .next ((s.withDigest (low32 (hash128 m (low32 s.seed1) (low32 s.seed1)).1, 0)).withErr 0) :=
  onOperand_ok _ operand

/-- Settles O29: on a message the operand is the message, and each command loads its digest. -/
theorem shortLongHash128Complete : Obligations.ShortLongHash128Complete := by
  intro s n m message
  have operand := messageOperand_of_message message
  simp only [exec_short operand, exec_long operand, exec_hash128 operand, withDigest_withErr, hash128, and_self]

/-- Settles O30: the length of the message is `SRC_LEN`, and an error of the operand is the same error of both. -/
theorem hash128SelectsThePath : Obligations.Hash128SelectsThePath := by
  intro s n
  refine ⟨fun short => onOperand_congr fun m operand => ?_, fun long => onOperand_congr fun m operand => ?_⟩
  · rw [hash128, if_pos (by rw [messageOperand_length operand]; exact short)]
  · rw [hash128, if_neg (by rw [messageOperand_length operand]; omega)]

/-! ### `HASH64` and `HASH32` -/

theorem low32_toNat (x : Word) : (low32 x).toNat = x.toNat % 2 ^ 32 := by
  rw [low32, BitVec.toNat_setWidth_of_le (by decide), BitVec.extractLsb'_toNat, Nat.shiftRight_zero]

/-- The high half of a word does not reach its low half. -/
theorem low32_append (hi : BitVec 32) (x : Word) : low32 (hi ++ x.extractLsb' 0 32) = low32 x := by
  refine congrArg (BitVec.setWidth 64) (BitVec.eq_of_getLsbD_eq fun j hj => ?_)
  simp only [BitVec.getLsbD_extractLsb', BitVec.getLsbD_append, hj, Nat.zero_add, decide_true, Bool.true_and, if_true]

/-- Settles O31: each command is `HASH128` at the state with its seeds, cut down; the operand sees no seed. -/
theorem hash64AndHash32FromHash128 : Obligations.Hash64AndHash32FromHash128 := by
  intro s n m message
  have operand := messageOperand_of_message message
  refine ⟨⟨_, exec_hash128 (s := { s with seed2 := s.seed1 }) operand, exec_hash64 operand⟩,
    _, _, exec_hash128 (s := { s with seed1 := low32 s.seed1, seed2 := low32 s.seed1 }) operand, exec_hash32 operand,
    rfl, low32_toNat _, fun hi => ?_⟩
  have run := exec_hash32 (s := { s with seed1 := hi ++ s.seed1.extractLsb' 0 32 }) operand
  rw [low32_append] at run
  exact run

/-! ### The Short algorithm written out -/

/-- Zeros above the bytes of a word add nothing. -/
theorem le64_append_zeros (t : List Byte) (k : Nat) : le64 (t ++ zeros k) = le64 t := by
  induction t with
  | nil => exact le64_zeros k
  | cons b t ih => rw [List.cons_append, le64, le64, ih]

/-- Padding with zeros changes no word of the bytes. -/
theorem le64_slice_append_zeros (t : List Byte) (k p q : Nat) :
    le64 (slice (t ++ zeros k) p q) = le64 (slice t p q) := by
  have padded : slice (t ++ zeros k) p q =
      slice t p q ++ zeros (min (q - p - (t.length - p)) (k - (p - t.length))) := by
    simp [slice, zeros, List.drop_append, List.take_append]
  rw [padded, le64_append_zeros]

/-- Two words enter the state in `c` and `d`. -/
theorem addAt_c_d (a b c d x y : Word) : addAt (addAt #v[a, b, c, d] 2 x) 3 y = #v[a, b, c + x, d + y] := rfl

theorem shortHalf_eq_spelled (m : List Byte) (q : Vector Word 4) :
    shortHalf m q =
      shortMixSpelled q[0] q[1] (q[2] + le64 (slice m 0 8)) (q[3] + le64 (slice m 8 16)) := by
  cases q using vector4_cases with
  | literal a b c d =>
    rw [shortHalf, addAt_c_d, shortMix_eq_spelled]
    rfl

/-- The first half of the chunk at byte `p`. -/
theorem shortHalf_drop (m : List Byte) (p : Nat) (q : Vector Word 4) :
    shortHalf (m.drop p) q =
      shortMixSpelled q[0] q[1] (q[2] + le64 (slice m p (p + 8))) (q[3] + le64 (slice m (p + 8) (p + 16))) := by
  rw [shortHalf_eq_spelled, slice_drop, slice_drop, Nat.add_zero]

/-- Chunk `k` enters after the first `k` by the lines of R131. -/
theorem shortChunks_succ (k : Nat) (m : List Byte) (q : Vector Word 4) :
    let p := 32 * k
    let h := shortChunks k m q
    let x := shortMixSpelled h[0] h[1] (h[2] + le64 (slice m p (p + 8))) (h[3] + le64 (slice m (p + 8) (p + 16)))
    shortChunks (k + 1) m q =
      #v[x[0] + le64 (slice m (p + 16) (p + 24)), x[1] + le64 (slice m (p + 24) (p + 32)), x[2], x[3]] := by
  intro p h x
  have half : shortHalf (m.drop p) h = x := shortHalf_drop m p h
  rw [shortChunks_add, shortChunks, shortChunks, shortChunk, half, slice_drop, slice_drop]
  cases x using vector4_cases with
  | literal a b c d => rfl

theorem shortTail_nil {t : List Byte} (empty : t.length = 0) (a b c d : Word) :
    shortTail t #v[a, b, c, d] = #v[a, b, c + K, d + K] := if_pos empty

/-- The tail of R132 before its rows part: its two words, the second 0 up to 8 bytes. -/
theorem shortTail_words {t : List Byte} (nonempty : 1 ≤ t.length) (a b c d : Word) :
    shortTail t #v[a, b, c, d] = #v[a, b, c + le64 (slice t 0 8), d + le64 (slice t 8 16)] := by
  rw [shortTail, if_neg (by omega), addAt_c_d, le64_slice_append_zeros, le64_slice_append_zeros]

theorem shortTail_short {t : List Byte} (nonempty : 1 ≤ t.length) (short : t.length ≤ 8) (a b c d : Word) :
    shortTail t #v[a, b, c, d] = #v[a, b, c + le64 t, d] := by
  have first : slice t 0 8 = t := List.take_of_length_le short
  have second : slice t 8 16 = [] := by rw [slice, List.drop_eq_nil_of_le short, List.take_nil]
  rw [shortTail_words nonempty, first, second, le64]
  simp

theorem shortTail_long {t : List Byte} (long : 9 ≤ t.length) (bound : t.length ≤ 15) (a b c d : Word) :
    shortTail t #v[a, b, c, d] = #v[a, b, c + le64 (slice t 0 8), d + le64 (slice t 8 t.length)] := by
  have second : slice t 8 16 = slice t 8 t.length := by
    rw [slice, slice, List.take_of_length_le (by simp; omega), List.take_of_length_le (by simp)]
  rw [shortTail_words (by omega), second]

/-- The Short digest from the chunks, the 16-byte step, the tail and the end (R131). -/
theorem shortHash_eq_spelled (m : List Byte) (s1 s2 : Word) :
    let p := 32 * (m.length / 32)
    let h := shortChunks (m.length / 32) m #v[s1, s2, K, K]
    let q := if m.length % 32 < 16 then h
      else shortMixSpelled h[0] h[1] (h[2] + le64 (slice m p (p + 8))) (h[3] + le64 (slice m (p + 8) (p + 16)))
    let tail := m.drop (m.length - m.length % 16)
    let u := shortTail tail #v[q[0], q[1], q[2], q[3] + (BitVec.ofNat 64 m.length <<< 56)]
    let out := shortEndSpelled u[0] u[1] u[2] u[3]
    shortHash m s1 s2 = (out[0], out[1]) := by
  intro p h q tail u out
  have rest : (m.drop p).length = m.length % 32 := by
    rw [List.length_drop]
    omega
  have state : (if 16 ≤ (m.drop p).length then shortHalf (m.drop p) h else h) = q := by
    rw [rest, shortHalf_drop]
    by_cases below : m.length % 32 < 16
    · exact (if_neg (by omega)).trans (if_pos below).symm
    · exact (if_pos (by omega)).trans (if_neg below).symm
  have bytes : (if 16 ≤ (m.drop p).length then (m.drop p).drop 16 else m.drop p) = tail := by
    rw [rest, List.drop_drop]
    split
    · next step => exact congrArg (m.drop ·) (by omega)
    · next whole => exact congrArg (m.drop ·) (by omega)
  have length : addAt q 3 (lengthTop m.length) = #v[q[0], q[1], q[2], q[3] + (BitVec.ofNat 64 m.length <<< 56)] := by
    cases q using vector4_cases with
    | literal a b c d => rfl
  rw [shortHash, state, bytes, length, shortEnd_eq_spelled]

/-- Settles O32: the clauses are the chunks in order, the rows of the tail and the digest. -/
theorem shortTailTable : Obligations.ShortTailTable :=
  ⟨fun m q k => ⟨rfl, shortChunks_succ k m q⟩,
    fun _ a b c d => ⟨fun empty => shortTail_nil empty a b c d,
      fun nonempty short => shortTail_short nonempty short a b c d,
      fun long bound => shortTail_long long bound a b c d⟩,
    shortHash_eq_spelled⟩

/-! ### The engine after reset -/

theorem hash128_nil_zero : hash128 [] 0 0 = (0x232706FC6BF50919, 0x8B72EE65B4E851C7) := by decide

/-- Settles O57: the engine after reset is that of `INIT`, so it holds the empty message, whose digest is evaluated. -/
theorem resetEngineIsInitZero : Obligations.ResetEngineIsInitZero := by
  intro c
  refine ⟨fun s t seed1 seed2 h => ?_, ?_, hash128_nil_zero⟩
  · obtain rfl := Host.Outcome.next.inj h
    rw [State.withErr_eng, State.withEngine_eng, seed1, seed2]
    exact Engine.reset_eq_init.symm
  · have digest : (State.resetWith c).eng.final = hash128 [] 0 0 := Engine.reset_holds.final
    rw [exec_final, digest, hash128_nil_zero]
    rfl

end Sys2Proof.Machine
end

section
/-! SUPPORT. Digest text (43_digest.md): the parser against the grammar of R192, the value of the digits, and the round
trip of the canonical text (R197, R198). With the statements about them. -/

namespace Sys2Proof.Machine

variable {s t : State} {text u r lead : List Byte} {b : Byte} {d : Digest} {ds : List (BitVec 4)}

/-! ### Whitespace, digits and the marker -/

/-- The bytes are whitespace. -/
abbrev Blank (text : List Byte) : Prop := ∀ b ∈ text, isSpace b

/-- The text does not begin with whitespace. -/
def BeginsVisible (text : List Byte) : Prop := ∀ b ∈ text.head?, isSpace b = false

theorem beginsVisible_cons : BeginsVisible (b :: u) ↔ isSpace b = false := by
  simp [BeginsVisible]

/-- A digit is no whitespace and no letter of the marker (R192). -/
theorem digit_visible : ∀ b, (digitValue b).isSome → isSpace b = false ∧ b ≠ 0x78 ∧ b ≠ 0x58 := by decide

/-- Whitespace is no letter of the marker. -/
theorem space_no_letter : ∀ b, isSpace b → b ≠ 0x78 ∧ b ≠ 0x58 := by decide

theorem skipSpace_append (blank : Blank lead) (u : List Byte) : skipSpace (lead ++ u) = skipSpace u := by
  induction lead with
  | nil => rfl
  | cons b lead ih =>
    obtain ⟨first, others⟩ := List.forall_mem_cons.mp blank
    rw [List.cons_append, skipSpace, if_pos first, ih others]

theorem skipSpace_of_beginsVisible (visible : BeginsVisible u) : skipSpace u = u := by
  cases u with
  | nil => rfl
  | cons b u =>
    rw [skipSpace, if_neg (by simp [beginsVisible_cons.mp visible])]

/-- A text is its leading whitespace and the rest, which begins with none. -/
theorem exists_lead (text : List Byte) :
    ∃ lead, Blank lead ∧ text = lead ++ skipSpace text ∧ BeginsVisible (skipSpace text) := by
  induction text with
  | nil => exact ⟨[], nofun, rfl, nofun⟩
  | cons b text ih =>
    rw [skipSpace]
    split
    · next space =>
      obtain ⟨lead, blank, same, visible⟩ := ih
      exact ⟨b :: lead, List.forall_mem_cons.mpr ⟨space, blank⟩, congrArg (b :: ·) same, visible⟩
    · next visible => exact ⟨[], nofun, rfl, beginsVisible_cons.mpr (Bool.eq_false_iff.mpr visible)⟩

/-- The optional marker (R192). -/
abbrev Marker (marker : List Byte) : Prop := marker = [] ∨ marker = [0x30, 0x78] ∨ marker = [0x30, 0x58]

/-- A marker right before a digit is taken off. -/
theorem dropMarker_marker {x : Byte} (letter : x = 0x78 ∨ x = 0x58) (digit : (digitValue b).isSome) (u : List Byte) :
    dropMarker (0x30 :: x :: b :: u) = some (b :: u) :=
  (if_pos ⟨rfl, letter⟩).trans (if_pos digit)

/-- A text whose second byte is no letter of the marker stays as it is. -/
theorem dropMarker_plain (plain : ∀ x ∈ u.head?, x ≠ 0x78 ∧ x ≠ 0x58) : dropMarker (b :: u) = some (b :: u) := by
  cases u with
  | nil => rfl
  | cons x u =>
    obtain ⟨notLower, notUpper⟩ := plain x rfl
    exact if_neg fun marker => marker.2.elim notLower notUpper

/-- What is left of a text that begins visibly begins visibly, after at most one marker. -/
theorem exists_marker (visible : BeginsVisible u) (dropped : dropMarker u = some r) :
    ∃ marker, Marker marker ∧ u = marker ++ r ∧ BeginsVisible r := by
  unfold dropMarker at dropped
  split at dropped
  · next z x tail =>
    split at dropped
    · next marker =>
      obtain ⟨rfl, letter⟩ := marker
      split at dropped
      · cases dropped
      · next b _ =>
        split at dropped
        · next digit =>
          obtain rfl := Option.some.inj dropped
          exact ⟨[0x30, x], .inr (letter.imp (fun h => by rw [h]) fun h => by rw [h]), rfl,
            beginsVisible_cons.mpr (digit_visible b digit).1⟩
        · cases dropped
    · exact Option.some.inj dropped ▸ ⟨[], .inl rfl, rfl, visible⟩
  · exact Option.some.inj dropped ▸ ⟨[], .inl rfl, rfl, visible⟩

/-! ### Digits with whitespace between them -/

/-- Digits after their gaps, and trailing whitespace, that spell the digit values `ds`. -/
structure Spells (digits : List (List Byte × Byte)) (trail : List Byte) (ds : List (BitVec 4)) : Prop where
  gaps : ∀ p ∈ digits, Blank p.1
  trail : Blank trail
  values : (digits.map Prod.snd).map digitValue = ds.map some

variable {digits : List (List Byte × Byte)} {trail : List Byte}

theorem Spells.length (h : Spells digits trail ds) : digits.length = ds.length := by
  simpa using congrArg List.length h.values

theorem gapped_cons (p : List Byte × Byte) (digits : List (List Byte × Byte)) :
    gapped (p :: digits) = p.1 ++ p.2 :: gapped digits := by
  simp [gapped]

theorem digitsOf_append (blank : Blank lead) (u : List Byte) : digitsOf (lead ++ u) = digitsOf u := by
  induction lead with
  | nil => rfl
  | cons b lead ih =>
    obtain ⟨first, others⟩ := List.forall_mem_cons.mp blank
    rw [List.cons_append, digitsOf, if_pos first, ih others]

theorem digitsOf_blank (blank : Blank u) : digitsOf u = some [] := by
  rw [← List.append_nil u, digitsOf_append blank, digitsOf]

theorem digitsOf_digit {v : BitVec 4} (digit : digitValue b = some v) (u : List Byte) :
    digitsOf (b :: u) = (digitsOf u).map (v :: ·) := by
  have visible := (digit_visible b (by rw [digit]; rfl)).1
  rw [digitsOf, if_neg (by simp [visible]), digit]
  cases digitsOf u <;> rfl

/-- The digits of a spelled text are read back. -/
theorem Spells.digitsOf (h : Spells digits trail ds) : digitsOf (gapped digits ++ trail) = some ds := by
  obtain ⟨gaps, blank, values⟩ := h
  induction digits generalizing ds with
  | nil =>
    obtain rfl : ds = [] := by simpa using values.symm
    exact digitsOf_blank blank
  | cons p digits ih =>
    cases ds with
    | nil => simp at values
    | cons v ds =>
      obtain ⟨gap, gaps⟩ := List.forall_mem_cons.mp gaps
      obtain ⟨value, values⟩ := List.cons.inj values
      rw [gapped_cons, List.append_assoc, digitsOf_append gap, List.cons_append, digitsOf_digit value, ih gaps values]
      rfl

/-- A text whose digits are read is spelled. -/
theorem exists_spells (h : digitsOf r = some ds) :
    ∃ digits trail, Spells digits trail ds ∧ r = gapped digits ++ trail := by
  induction r generalizing ds with
  | nil =>
    obtain rfl := Option.some.inj h
    exact ⟨[], [], ⟨nofun, nofun, rfl⟩, rfl⟩
  | cons b r ih =>
    rw [digitsOf] at h
    split at h
    · next space =>
      obtain ⟨digits, trail, ⟨gaps, blank, values⟩, rfl⟩ := ih h
      cases digits with
      | nil => exact ⟨[], b :: trail, ⟨nofun, List.forall_mem_cons.mpr ⟨space, blank⟩, values⟩, rfl⟩
      | cons p digits =>
        obtain ⟨gap, gaps⟩ := List.forall_mem_cons.mp gaps
        exact ⟨(b :: p.1, p.2) :: digits, trail, ⟨List.forall_mem_cons.mpr
          ⟨List.forall_mem_cons.mpr ⟨space, gap⟩, gaps⟩, blank, values⟩, by simp [gapped_cons]⟩
    · split at h
      · next v vs value rest =>
        obtain rfl := Option.some.inj h
        obtain ⟨digits, trail, ⟨gaps, blank, values⟩, rfl⟩ := ih rest
        exact ⟨([], b) :: digits, trail, ⟨List.forall_mem_cons.mpr ⟨nofun, gaps⟩, blank,
          by simp [value, values]⟩, by simp [gapped_cons]⟩
      · cases h

/-! ### The grammar -/

/-- The grammar, its digits in one list. -/
theorem digestText_iff : DigestText text ds ↔ ds.length = 32 ∧
    ∃ lead marker first rest trail, Blank lead ∧ Marker marker ∧ Spells (([], first) :: rest) trail ds ∧
      text = lead ++ (marker ++ (gapped (([], first) :: rest) ++ trail)) := by
  constructor
  · rintro ⟨lead, marker, first, rest, trail, blank, hmarker, count, gaps, blank', rfl, values⟩
    have length : ds.length = 32 := by simpa [count] using (congrArg List.length values).symm
    exact ⟨length, lead, marker, first, rest, trail, blank, hmarker,
      ⟨List.forall_mem_cons.mpr ⟨nofun, gaps⟩, blank', values⟩, by simp [gapped_cons]⟩
  · rintro ⟨length, lead, marker, first, rest, trail, blank, hmarker, spells, rfl⟩
    have count := spells.length
    obtain ⟨gaps, blank', values⟩ := spells
    refine ⟨lead, marker, first, rest, trail, blank, hmarker, ?_, (List.forall_mem_cons.mp gaps).2, blank',
      by simp [gapped_cons], values⟩
    rw [List.length_cons, length] at count
    omega

theorem Spells.digit (h : Spells digits trail ds) : ∀ b ∈ digits.map Prod.snd, (digitValue b).isSome := by
  intro b hb
  have value : digitValue b ∈ ds.map some := h.values ▸ List.mem_map_of_mem hb
  obtain ⟨v, -, hv⟩ := List.mem_map.mp value
  exact hv ▸ rfl

/-- Every byte of a spelled text is whitespace or a digit, so none is a letter of the marker. -/
theorem Spells.no_letter (h : Spells digits trail ds) : ∀ b ∈ gapped digits ++ trail, b ≠ 0x78 ∧ b ≠ 0x58 := by
  intro b hb
  obtain inDigits | inTrail := List.mem_append.mp hb
  · obtain ⟨p, hp, hb⟩ := List.mem_flatMap.mp inDigits
    obtain gap | own := List.mem_append.mp hb
    · exact space_no_letter b (h.gaps p hp b gap)
    · obtain rfl := List.mem_singleton.mp own
      exact (digit_visible _ (h.digit _ (List.mem_map_of_mem hp))).2
  · exact space_no_letter b (h.trail b inTrail)

/-- The parser takes off the marker of a spelled text, whose first digit follows it at once. -/
theorem Spells.dropMarker {marker : List Byte} {first : Byte} (h : Spells (([], first) :: digits) trail ds)
    (hmarker : Marker marker) :
    dropMarker (marker ++ (gapped (([], first) :: digits) ++ trail)) =
      some (gapped (([], first) :: digits) ++ trail) := by
  have noLetter := h.no_letter
  have digit := h.digit first (List.mem_cons_self ..)
  rw [gapped_cons, List.nil_append, List.cons_append] at noLetter ⊢
  obtain rfl | rfl | rfl := hmarker
  · exact dropMarker_plain fun x hx => noLetter x (List.mem_cons_of_mem _ (List.mem_of_mem_head? hx))
  · exact dropMarker_marker (.inl rfl) digit _
  · exact dropMarker_marker (.inr rfl) digit _

theorem Spells.beginsVisible {marker : List Byte} {first : Byte} (h : Spells (([], first) :: digits) trail ds)
    (hmarker : Marker marker) : BeginsVisible (marker ++ (gapped (([], first) :: digits) ++ trail)) := by
  have digit := h.digit first (List.mem_cons_self ..)
  rw [gapped_cons]
  obtain rfl | rfl | rfl := hmarker
  · exact beginsVisible_cons.mpr (digit_visible first digit).1
  · exact beginsVisible_cons.mpr (by decide)
  · exact beginsVisible_cons.mpr (by decide)

/-- The texts whose digits the parser reads are those of the grammar. -/
theorem digitsRead_iff :
    ((dropMarker (skipSpace text)).bind digitsOf = some ds ∧ ds.length = 32) ↔ DigestText text ds := by
  rw [digestText_iff]
  constructor
  · rintro ⟨read, length⟩
    obtain ⟨r, dropped, read⟩ := Option.bind_eq_some_iff.mp read
    obtain ⟨lead, blank, same, visible⟩ := exists_lead text
    obtain ⟨marker, hmarker, rest, visible⟩ := exists_marker visible dropped
    obtain ⟨digits, trail, spells, rfl⟩ := exists_spells read
    refine ⟨length, lead, marker, ?_⟩
    cases digits with
    | nil =>
      have count := spells.length
      rw [length] at count
      cases count
    | cons p digits =>
      obtain ⟨gap, first⟩ := p
      cases gap with
      | nil => exact ⟨first, digits, trail, blank, hmarker, spells, same.trans (congrArg (lead ++ ·) rest)⟩
      | cons b gap =>
        have space := spells.gaps _ (List.mem_cons_self ..) b (List.mem_cons_self ..)
        rw [gapped_cons] at visible
        rw [beginsVisible_cons.mp visible] at space
        cases space
  · rintro ⟨length, lead, marker, first, rest, trail, blank, hmarker, spells, rfl⟩
    rw [skipSpace_append blank, skipSpace_of_beginsVisible (spells.beginsVisible hmarker), spells.dropMarker hmarker]
    exact ⟨spells.digitsOf, length⟩

/-! ### The value of the digits -/

/-- A digit behind the others moves their value up by one digit. -/
theorem valueOf_append (ds : List (BitVec 4)) (v : BitVec 4) :
    valueOf (ds ++ [v]) = (valueOf ds <<< 4) ||| v.setWidth 128 := by
  simp [valueOf]

theorem shiftLeft_or_digit (x : BitVec 128) (v : BitVec 4) :
    (x <<< 4) ||| v.setWidth 128 = (x <<< 4) + v.setWidth 128 := by
  refine (BitVec.add_eq_or_of_and_eq_zero _ _ (BitVec.eq_of_getLsbD_eq fun j _ => ?_)).symm
  by_cases low : j < 4
  · simp [low]
  · simp [BitVec.getLsbD_of_ge v j (by omega)]

/-- The value of the digits is their shifted sum, the first digit most significant (R192). -/
theorem valueOf_eq_sum (ds : List (BitVec 4)) :
    valueOf ds = ((List.range ds.length).map fun k =>
      (ds.getD k 0).setWidth 128 <<< (4 * (ds.length - 1 - k))).sum := by
  induction ds using List.reverseRecOn with
  | nil => rfl
  | append_singleton ds v ih =>
    rw [valueOf_append, shiftLeft_or_digit, ih, sum_shiftLeft, List.map_map, List.length_append, List.length_singleton,
      List.range_succ, List.map_append, List.sum_append]
    congr 1
    · congr 1
      refine List.map_congr_left fun k hk => ?_
      have below := List.mem_range.mp hk
      rw [Function.comp_apply, ← BitVec.shiftLeft_add, List.getD_append _ _ _ _ below]
      congr 1
      omega
    · simp

theorem valueOf_eq_digitSum (length : ds.length = 32) : valueOf ds = digitSum ds := by
  rw [valueOf_eq_sum, length, digitSum]

/-- The parser's value (R192). -/
theorem parseText_eq_some_iff : parseText text = some d ↔
    ∃ ds, ((dropMarker (skipSpace text)).bind digitsOf = some ds ∧ ds.length = 32) ∧
      d = ((valueOf ds).extractLsb' 64 64, (valueOf ds).extractLsb' 0 64) := by
  rw [parseText]
  cases (dropMarker (skipSpace text)).bind digitsOf with
  | none => simp
  | some ds =>
    by_cases length : ds.length = 32
    · simp [length, eq_comm]
    · simp [length]

/-- Settles O46: the parser reads the digits of exactly the texts of the grammar, and their value is the digit sum. -/
theorem parseAcceptsExactlyTheGrammar : Obligations.ParseAcceptsExactlyTheGrammar := by
  intro text d
  rw [parseText_eq_some_iff]
  refine exists_congr fun ds => ?_
  rw [digitsRead_iff]
  refine and_congr_right fun grammar => ?_
  rw [valueOf_eq_digitSum (digestText_iff.mp grammar).1]

/-! ### The canonical text -/

/-- The digits read so far of a value are its upper bits. -/
theorem valueOf_leading_nibbles (x : BitVec 128) {n : Nat} (h : n ≤ 32) :
    valueOf ((List.range n).map fun i => x.extractLsb' (124 - 4 * i) 4) = x >>> (128 - 4 * n) := by
  induction n with
  | zero => simp [valueOf, BitVec.ushiftRight_eq_zero]
  | succ n ih =>
    rw [List.range_succ, List.map_append, List.map_singleton, valueOf_append, ih (by omega)]
    refine BitVec.eq_of_getLsbD_eq fun j hj => ?_
    simp only [BitVec.getLsbD_or, BitVec.getLsbD_shiftLeft, BitVec.getLsbD_ushiftRight, BitVec.getLsbD_setWidth,
      BitVec.getLsbD_extractLsb', hj, decide_true, Bool.true_and]
    by_cases low : j < 4
    · simp [low, show 124 - 4 * n + j = 128 - 4 * (n + 1) + j by omega]
    · simp [low, show 128 - 4 * n + (j - 4) = 128 - 4 * (n + 1) + j by omega]

/-- The digits of a digest have its value (R191, R192). -/
theorem valueOf_nibbles (d : Digest) : valueOf (nibbles d) = d.1 ++ d.2 := by
  have value := valueOf_leading_nibbles (d.1 ++ d.2) (Nat.le_refl 32)
  simpa [nibbles] using value

theorem halves_append (x y : Word) : ((x ++ y).extractLsb' 64 64, (x ++ y).extractLsb' 0 64) = (x, y) := by
  refine Prod.ext (BitVec.eq_of_getLsbD_eq fun j hj => ?_) (BitVec.eq_of_getLsbD_eq fun j hj => ?_)
  · rw [BitVec.getLsbD_extractLsb', BitVec.getLsbD_append, if_neg (by omega), Nat.add_sub_cancel_left]
    simp [hj]
  · rw [BitVec.getLsbD_extractLsb', BitVec.getLsbD_append, if_pos (by omega), Nat.zero_add]
    simp [hj]

theorem nibbles_length (d : Digest) : (nibbles d).length = 32 := by
  simp [nibbles]

/-- A text of the grammar that spells the digits of a digest parses to it (R198). -/
theorem parseText_of_nibbles (spelled : DigestText text (nibbles d)) : parseText text = some d :=
  parseText_eq_some_iff.mpr ⟨nibbles d, digitsRead_iff.mpr spelled, by rw [valueOf_nibbles, halves_append]⟩

theorem digitValue_hexDigit : ∀ v, digitValue (hexDigit v) = some v := by decide

/-- Digits written without gaps are their own text. -/
theorem gapped_nil_gaps (text : List Byte) : gapped (text.map fun b => ([], b)) = text := by
  induction text with
  | nil => rfl
  | cons b text ih => rw [List.map_cons, gapped_cons, ih, List.nil_append]

/-- The upper-case digits of 32 values are a text of the grammar. -/
theorem digestText_hexDigits (length : ds.length = 32) : DigestText (ds.map hexDigit) ds := by
  refine digestText_iff.mpr ⟨length, ?_⟩
  cases ds with
  | nil => cases length
  | cons v ds =>
    refine ⟨[], [], hexDigit v, (ds.map hexDigit).map fun b => ([], b), [], nofun, .inl rfl, ⟨?_, nofun, ?_⟩, ?_⟩
    · simp [Blank]
    · simp [digitValue_hexDigit, Function.comp_def]
    · rw [gapped_cons, gapped_nil_gaps]
      simp

theorem hexText_eq_map (d : Digest) : hexText d = (nibbles d).map hexDigit := by
  simp [hexText, nibbles]

theorem parseText_hexText (d : Digest) : parseText (hexText d) = some d :=
  parseText_of_nibbles (hexText_eq_map d ▸ digestText_hexDigits (nibbles_length d))

/-- Settles O51: the grammar admits the spaces, the marker and the case, and the canonical text is one of its texts. -/
theorem parseToleratesSpacesMarkerAndCase : Obligations.ParseToleratesSpacesMarkerAndCase := fun d _ spelled =>
  ⟨parseText_of_nibbles spelled, (parseText_of_nibbles spelled).trans (parseText_hexText d).symm⟩

/-- The bytes of `HEX0` to `HEX3` are the text `DTOHEX` writes (R197). -/
theorem hexBytes_hexWords (d : Digest) : hexBytes (hexWords d) = hexText d := by
  refine List.map_congr_left fun i hi => ?_
  have below := List.mem_range.mp hi
  have word : (hexWords d).toList.getD (i / 8) 0 = (hexWords d)[(⟨i / 8, by omega⟩ : Fin 4)] := by
    simp [List.getD_eq_getElem?_getD, show i / 8 < 4 by omega]
  rw [word]
  refine (byteOf_hexWords d ⟨i / 8, by omega⟩ ⟨i % 8, by omega⟩).trans ?_
  rw [Nat.div_add_mod]

/-- Settles O50: the bytes of `HEX` are the canonical text, which parses to the latch. -/
theorem hexTextParsesBack : Obligations.HexTextParsesBack := by
  intro s t h
  obtain rfl := Host.Outcome.next.inj h
  have parsed : parseText (hexBytes (hexWords (s.dig1, s.dig2))) = some (s.dig1, s.dig2) :=
    (congrArg parseText (hexBytes_hexWords _)).trans (parseText_hexText _)
  exact ⟨parsed, fun u inside bytes => exec_dparse_value inside ((congrArg parseText bytes).trans parsed)⟩

end Sys2Proof.Machine
end
